-- ==== Sys2Proof/Word.lean ====
section
/-! DEFINITION. The widths of the block's values (spec/00_scope.md rules R5, R6): everything is an unsigned bit vector. -/

namespace Sys2Proof

/-- `u8`, the data width `W` (R5, R6): table cells, operands, the registers `X`, `Z`, `STATUS`. -/
abbrev Byte := BitVec 8

/-- `u32` (R5, R6): command words and the registers `RES`, `MISCNT`. -/
abbrev Word := BitVec 32

/-- The 4-bit status code `ST` (R11, R160). -/
abbrev Code := BitVec 4

/-- A 64-bit DIAG record (R5, R27). -/
abbrev DiagRecord := BitVec 64

end Sys2Proof
end

