-- ==== Sys2Proof/Syntax.lean ====
section
/-! DEFINITION. The commands of the set GBX-1 (spec/30_encoding.md rule R63), and the names their selector and
register-number operands stand for (R40, R66). A selector is kept as the whole byte the command carries (R62): which
bytes are legal is checked by the command (R64 steps 3 and 4), so that an illegal one is refused with its own code. -/

namespace Sys2Proof

/-- One constructor per row of spec/opcode_table.json (R63). The operand named `c` is the field `C`; the others are
`A` and `B` (R60). -/
inductive Instr where
  /-- `NOP` (R145). -/
  | nop
  /-- `BLDTAB` (R80). -/
  | bldtab
  /-- `MULX a` (R91). -/
  | mulx (a : Byte)
  /-- `GFMUL a, b` (R93). -/
  | gfmul (a b : Byte)
  /-- `CDIR` (R100). -/
  | cdir
  /-- `CDLOG` (R113). -/
  | cdlog
  /-- `KAPPA v` (R111). -/
  | kappa (v : Byte)
  /-- `CHECK table, label` (R125). -/
  | check (c label : Byte)
  /-- `ROTD table` (R137). -/
  | rotd (c : Byte)
  /-- `ROTDX table, x` (R138). -/
  | rotdx (c x : Byte)
  /-- `RDT space, index` (R146). -/
  | rdt (c index : Byte)
  /-- `RDR reg` (R148). -/
  | rdr (reg : Byte)
deriving DecidableEq, Repr

/-- The permutation spaces: the only tables CHECK, ROTD and ROTDX may name (R40, R66). -/
inductive PermSpace where
  | ref | canda | candb
deriving DecidableEq, Repr

/-- The nine table spaces (R40). -/
inductive Space where
  | ref | canda | candb | log | exp | tabS | tabK | sigma | kbit
deriving DecidableEq, Repr

/-- The registers RDR can read (R66, R148). -/
inductive Reg where
  | status | res | miscnt | x | z
deriving DecidableEq, Repr

/-- The error codes a command or a word can be refused with (R160). -/
inductive Err where
  /-- the opcode is none of the twelve -/
  | illop
  /-- a must-be-zero field is not zero -/
  | rsvd
  /-- the selector or register number is not legal for the command -/
  | sel
  /-- the RDT index is outside its space -/
  | range
  /-- `LOG` or `EXP` is needed and no BLDTAB has completed since reset -/
  | notab
  /-- the cell asked for never holds a value -/
  | undef
deriving DecidableEq, Repr

end Sys2Proof
end

