-- ==== Sys2Proof/Decode.lean ====
section
/-! DEFINITION. The command encoding (spec/30_encoding.md rules R60 to R65): fields, formats, the opcode map, the
decoder (total on all 2^32 words, refusing by name) and the encoder. -/

namespace Sys2Proof

/-- `OPC`, bits 31:24 (R60). -/
def fieldOpc (w : Word) : Byte := w.extractLsb' 24 8

/-- `C`, bits 23:16 (R60). -/
def fieldC (w : Word) : Byte := w.extractLsb' 16 8

/-- `B`, bits 15:8 (R60). -/
def fieldB (w : Word) : Byte := w.extractLsb' 8 8

/-- `A`, bits 7:0 (R60). -/
def fieldA (w : Word) : Byte := w.extractLsb' 0 8

/-- The five formats (R61). -/
inductive Format where
  | n | a | ab | c | ac
deriving DecidableEq, Repr

/-- The must-be-zero bits of a format (R61; the rows' `mbz_mask` in spec/opcode_table.json). -/
def Format.mbz : Format → Word
  | .n => 0x00FFFFFF
  | .a => 0x00FFFF00
  | .ab => 0x00FF0000
  | .c => 0x0000FFFF
  | .ac => 0x0000FF00

/-- The twelve opcodes (R63). -/
inductive Opcode where
  | nop | bldtab | mulx | gfmul | cdir | cdlog | kappa | check | rotd | rotdx | rdt | rdr
deriving DecidableEq, Repr

/-- The command that `OPC` selects (R63); `none` for `0x0C` to `0xFF` (R65). -/
def Opcode.ofByte (opc : Byte) : Option Opcode :=
  match opc.toNat with
  | 0x00 => some .nop
  | 0x01 => some .bldtab
  | 0x02 => some .mulx
  | 0x03 => some .gfmul
  | 0x04 => some .cdir
  | 0x05 => some .cdlog
  | 0x06 => some .kappa
  | 0x07 => some .check
  | 0x08 => some .rotd
  | 0x09 => some .rotdx
  | 0x0A => some .rdt
  | 0x0B => some .rdr
  | _ => none

/-- The format column of R63. -/
def Opcode.format : Opcode → Format
  | .nop => .n
  | .bldtab => .n
  | .mulx => .a
  | .gfmul => .ab
  | .cdir => .n
  | .cdlog => .n
  | .kappa => .a
  | .check => .ac
  | .rotd => .c
  | .rotdx => .ac
  | .rdt => .ac
  | .rdr => .a

/-- The operands column of R63: which field is which operand. -/
def Opcode.operands (op : Opcode) (w : Word) : Instr :=
  match op with
  | .nop => .nop
  | .bldtab => .bldtab
  | .mulx => .mulx (fieldA w)
  | .gfmul => .gfmul (fieldA w) (fieldB w)
  | .cdir => .cdir
  | .cdlog => .cdlog
  | .kappa => .kappa (fieldA w)
  | .check => .check (fieldC w) (fieldA w)
  | .rotd => .rotd (fieldC w)
  | .rotdx => .rotdx (fieldC w) (fieldA w)
  | .rdt => .rdt (fieldC w) (fieldA w)
  | .rdr => .rdr (fieldA w)

/-- The decoder: steps (1) and (2) of R64. The later steps belong to the command (Machine/). -/
def decode (w : Word) : Except Err Instr :=
  match Opcode.ofByte (fieldOpc w) with
  | none => .error .illop
  | some op => if w &&& op.format.mbz = 0 then .ok (op.operands w) else .error .rsvd

/-- The opcode of a command (R63). -/
def Instr.opcode : Instr → Opcode
  | .nop => .nop
  | .bldtab => .bldtab
  | .mulx _ => .mulx
  | .gfmul _ _ => .gfmul
  | .cdir => .cdir
  | .cdlog => .cdlog
  | .kappa _ => .kappa
  | .check _ _ => .check
  | .rotd _ => .rotd
  | .rotdx _ _ => .rotdx
  | .rdt _ _ => .rdt
  | .rdr _ => .rdr

/-- A command word from its four fields (R60). -/
def packFields (opc c b a : Byte) : Word := opc ++ c ++ b ++ a

/-- The word of a command, written from the word column of R68: must-be-zero fields are zero. -/
def encode : Instr → Word
  | .nop => packFields 0x00 0 0 0
  | .bldtab => packFields 0x01 0 0 0
  | .mulx a => packFields 0x02 0 0 a
  | .gfmul a b => packFields 0x03 0 b a
  | .cdir => packFields 0x04 0 0 0
  | .cdlog => packFields 0x05 0 0 0
  | .kappa v => packFields 0x06 0 0 v
  | .check c label => packFields 0x07 c 0 label
  | .rotd c => packFields 0x08 c 0 0
  | .rotdx c x => packFields 0x09 c 0 x
  | .rdt c index => packFields 0x0A c 0 index
  | .rdr reg => packFields 0x0B 0 0 reg

/-- The command the decoder reads from a word numbered as spec/opcode_table.json numbers it: a command is one 32-bit
word (R60), bit 0 the least significant (R6), and bits from `nbits` up are zero. -/
def decodeTableWord (nbits w : Nat) : Option Instr :=
  if w % 2 ^ nbits < 2 ^ 32 then (decode (BitVec.ofNat 32 (w % 2 ^ nbits))).toOption else none

end Sys2Proof
end

