-- ==== Sys2Proof/Config.lean ====
section
/-! DEFINITION. The implementation parameters the spec leaves to configuration (spec/00_scope.md rule R5): the
constant tables, as data, and the one parameter with no default, which has no body here. The values the spec fixes,
and the defaults of the rest, are in Machine/Constants.lean. -/

namespace Sys2Proof

/-- The parameters of R5 whose values the source does not print. `KBIT[0]` is fixed by the source and is no field.
The block never writes any of them (R41). -/
structure Config where
  /-- `REF[0..255]` (R14). -/
  ref : Vector Byte 256
  /-- `TAB_S[0..14]` (R15). -/
  tabS : Vector Byte 15
  /-- `TAB_K[0..15]` (R16). -/
  tabK : Vector Byte 16
  /-- `TAB_K[16]`, the open parameter `TAB_K16` (R16, D10). -/
  tabK16 : Byte
  /-- `SIGMA[0..14]` (R18). -/
  sigma : Vector Byte 15
  /-- `KBIT[1]` (R17). -/
  kbit1 : Byte
  /-- `KBIT[2]` (R17). -/
  kbit2 : Byte
  /-- `KBIT[3]` (R17). -/
  kbit3 : Byte
deriving DecidableEq, Repr

/-- The value of the open parameter `TAB_K16` (R16; 92_eei_decisions.md D10): no value is given, so nothing can be
proved of this one (assumption 1). -/
opaque Config.openTabK16 : Byte

/-- `SIGMA` is a permutation of {0..14} (R18). -/
abbrev Config.wf (c : Config) : Prop :=
  (∀ v ∈ c.sigma.toList, v.toNat < 15) ∧ c.sigma.toList.Nodup

end Sys2Proof
end

