-- ==== Sys2Proof/Machine/Constants.lean ====
section
/-! DEFINITION. The constants of the block: the scalars the source fixes (spec/10_state.md rule R13,
spec/00_scope.md rule R5) and the default values of the configured tables (R14 to R18). -/

namespace Sys2Proof.Machine

/-- `FEEDBACK` (R13): the value XORed in when the top bit is shifted out. -/
def FEEDBACK : Byte := 0x1D

/-- `GEN_START` (R13): start of every LFSR walk. -/
def GEN_START : Byte := 0x01

/-- `P0` (R13): entry 0 of both candidates. -/
def P0 : Byte := 0xFC

/-- `Z0` (R13): first stored value of the direct constructor. -/
def Z0 : Byte := 0xEE

/-- `KAPPA_OFF` (R13): constant term of kappa. -/
def KAPPA_OFF : Byte := 0xDC

/-- `KBIT[0]`, fixed by the source (R5, R17). -/
def KBIT0 : Byte := 0x12

/-- `N`, the table length (R5). -/
def N : Nat := 256

/-- `ROWS` of the direct walk (R5). -/
def ROWS : Nat := 15

/-- `COLS` of the direct walk (R5). -/
def COLS : Nat := 17

/-- `BUILD_ITER`, the iterations of the table build (R5; 90_conflicts.md C1). -/
def BUILD_ITER : Nat := 256

/-- The default rows of `REF` (R14), sixteen entries a line. -/
def refRows : List Byte :=
  [0xFC, 0xEE, 0xDD, 0x11, 0xCF, 0x6E, 0x31, 0x16, 0xFB, 0xC4, 0xFA, 0xDA, 0x23, 0xC5, 0x04, 0x4D] ++ (
  [0xE9, 0x77, 0xF0, 0xDB, 0x93, 0x2E, 0x99, 0xBA, 0x17, 0x36, 0xF1, 0xBB, 0x14, 0xCD, 0x5F, 0xC1] ++ (
  [0xF9, 0x18, 0x65, 0x5A, 0xE2, 0x5C, 0xEF, 0x21, 0x81, 0x1C, 0x3C, 0x42, 0x8B, 0x01, 0x8E, 0x4F] ++ (
  [0x05, 0x84, 0x02, 0xAE, 0xE3, 0x6A, 0x8F, 0xA0, 0x06, 0x0B, 0xED, 0x98, 0x7F, 0xD4, 0xD3, 0x1F] ++ (
  [0xEB, 0x34, 0x2C, 0x51, 0xEA, 0xC8, 0x48, 0xAB, 0xF2, 0x2A, 0x68, 0xA2, 0xFD, 0x3A, 0xCE, 0xCC] ++ (
  [0xB5, 0x70, 0x0E, 0x56, 0x08, 0x0C, 0x76, 0x12, 0xBF, 0x72, 0x13, 0x47, 0x9C, 0xB7, 0x5D, 0x87] ++ (
  [0x15, 0xA1, 0x96, 0x29, 0x10, 0x7B, 0x9A, 0xC7, 0xF3, 0x91, 0x78, 0x6F, 0x9D, 0x9E, 0xB2, 0xB1] ++ (
  [0x32, 0x75, 0x19, 0x3D, 0xFF, 0x35, 0x8A, 0x7E, 0x6D, 0x54, 0xC6, 0x80, 0xC3, 0xBD, 0x0D, 0x57] ++ (
  [0xDF, 0xF5, 0x24, 0xA9, 0x3E, 0xA8, 0x43, 0xC9, 0xD7, 0x79, 0xD6, 0xF6, 0x7C, 0x22, 0xB9, 0x03] ++ (
  [0xE0, 0x0F, 0xEC, 0xDE, 0x7A, 0x94, 0xB0, 0xBC, 0xDC, 0xE8, 0x28, 0x50, 0x4E, 0x33, 0x0A, 0x4A] ++ (
  [0xA7, 0x97, 0x60, 0x73, 0x1E, 0x00, 0x62, 0x44, 0x1A, 0xB8, 0x38, 0x82, 0x64, 0x9F, 0x26, 0x41] ++ (
  [0xAD, 0x45, 0x46, 0x92, 0x27, 0x5E, 0x55, 0x2F, 0x8C, 0xA3, 0xA5, 0x7D, 0x69, 0xD5, 0x95, 0x3B] ++ (
  [0x07, 0x58, 0xB3, 0x40, 0x86, 0xAC, 0x1D, 0xF7, 0x30, 0x37, 0x6B, 0xE4, 0x88, 0xD9, 0xE7, 0x89] ++ (
  [0xE1, 0x1B, 0x83, 0x49, 0x4C, 0x3F, 0xF8, 0xFE, 0x8D, 0x53, 0xAA, 0x90, 0xCA, 0xD8, 0x85, 0x61] ++ (
  [0x20, 0x71, 0x67, 0xA4, 0x2D, 0x2B, 0x09, 0x5B, 0xCB, 0x9B, 0x25, 0xD0, 0xBE, 0xE5, 0x6C, 0x52] ++ (
  [0x59, 0xA6, 0x74, 0xD2, 0xE6, 0xF4, 0xB4, 0xC0, 0xD1, 0x66, 0xAF, 0xC2, 0x39, 0x4B, 0x63, 0xB6])))))))))))))))

/-- The default `REF` (R14). -/
def refDefault : Vector Byte 256 := ⟨⟨refRows⟩, by decide +kernel⟩

/-- The default `TAB_S` (R15). -/
def tabSDefault : Vector Byte 15 :=
  ⟨⟨[0x01, 0xDD, 0x92, 0x4F, 0x93, 0x99, 0x0B, 0x44, 0xD6, 0xD7, 0x4E, 0xDC, 0x98, 0x0A, 0x45]⟩, by decide⟩

/-- The default `TAB_K[0..15]` (R16). -/
def tabKDefault : Vector Byte 16 :=
  ⟨⟨[0xDC, 0xCE, 0xFA, 0xE8, 0xF8, 0xEA, 0xDE, 0xCC, 0xEC, 0xFE, 0xCA, 0xD8, 0xC8, 0xDA, 0xEE, 0xFC]⟩, by decide⟩

/-- The default `SIGMA` (R18), decimal as there. -/
def sigmaDefault : Vector Byte 15 :=
  ⟨⟨[0, 12, 9, 8, 7, 4, 14, 6, 5, 10, 2, 11, 1, 3, 13]⟩, by decide⟩

/-- The default configuration (R5, R14 to R18); `TAB_K16` has no default and stays open. -/
def defaultConfig : Config where
  ref := refDefault
  tabS := tabSDefault
  tabK := tabKDefault
  tabK16 := Config.openTabK16
  sigma := sigmaDefault
  kbit1 := 0x26
  kbit2 := 0x24
  kbit3 := 0x30

/-- `TAB_K[j]` for `j` in 0..16 (R16): sixteen configured entries and the open one. -/
def tabKAt (c : Config) (j : Fin 17) : Byte :=
  if h : j.val < 16 then c.tabK[j.val] else c.tabK16

/-- `KBIT[b]` for `b` in 0..3 (R17). -/
def kbitAt (c : Config) : Fin 4 → Byte
  | 0 => KBIT0
  | 1 => c.kbit1
  | 2 => c.kbit2
  | 3 => c.kbit3

end Sys2Proof.Machine
end

