-- ==== Sys2Proof/Machine/State.lean ====
section
/-! DEFINITION. The state of the block (spec/10_state.md rules R12 to R31), the ports' lists, the reasons a step can
stop, and the state after reset (R30). -/

namespace Sys2Proof.Machine

/-- One mutable table (R20, R21, R40): the cells that differ from what an unlisted cell holds, as (index, byte),
indices strictly rising. The operations and the canonical form are in Ops.lean. -/
abbrev Memory := List Host.Cell

/-- One response on the `RSP` port (R11): the status code and the value of `RES` after the command. -/
structure Response where
  st : Code
  res : Word
deriving DecidableEq, Repr

/-- What the host can send (R11, R184). -/
inductive HostInput where
  /-- a word on `CMD` -/
  | cmd (w : Word)
  /-- a pulse on `RST` (R190) -/
  | rst
deriving DecidableEq, Repr

/-- The architectural state of R12, and the two lists that stand for the ports (assumptions 4 and 6). -/
structure State where
  /-- The constant tables `REF`, `TAB_S`, `TAB_K`, `KBIT`, `SIGMA` (R14 to R18); nothing writes them (R41). -/
  cfg : Config
  /-- `LOG` (R20): an unlisted cell holds no value. -/
  log : Memory
  /-- `EXP` (R20): an unlisted cell holds no value. -/
  exp : Memory
  /-- `CANDA` (R21): an unlisted cell is `0x00`. -/
  canda : Memory
  /-- `CANDB` (R21): an unlisted cell is `0x00`. -/
  candb : Memory
  /-- `X` (R22). -/
  x : Byte
  /-- `Z` (R22). -/
  z : Byte
  /-- `RES` (R23). -/
  res : Word
  /-- `MISCNT` (R23). -/
  miscnt : Word
  /-- `STATUS` (R26): `TV` in bit 0, `ERR` in bits 7:4, bits 3:1 zero. -/
  status : Byte
  /-- `DIAG` (R27): the records emitted since reset, in emission order. -/
  diag : List DiagRecord
  /-- The responses given on `RSP` since reset, in order (R11). -/
  rsp : List Response
  /-- What the host sends next on `CMD` and `RST`, in order (R11, R184). -/
  input : List HostInput
deriving DecidableEq, Repr

/-- The spec gives the block no fault (R8, R168). These two mark an internal read that R42, R43 and R95 say cannot
happen; no state that meets the invariant of Safety.lean reaches one (assumption 7). -/
inductive Fault where
  /-- Raised by CDLOG and RDT: `TV = 1` and a cell of `LOG` or `EXP` that the command reads holds no value (R43).
  Safe: the model stops where the spec gives no effect. -/
  | noValue
  /-- Raised by CDLOG: `LOG[k]` is 0, so that `LOG[k] - 1` would borrow, or `17 * SIGMA[row]` is no index of `EXP`
  (R42, R95, R113). Safe: the model stops where the spec gives no effect. -/
  | indexRange
deriving DecidableEq, Repr

/-- Reasons a step has no meaning. -/
inductive Refusal where
  /-- Raised by `exec` for an instruction without a meaning. Safe. Every command has its meaning, so no arm of `exec`
  raises it. -/
  | notModelled (mnemonic : String)
deriving DecidableEq, Repr

/-- The state after a hard reset (R30, R190), with the default constants and nothing sent by the host. -/
def State.reset : State where
  cfg := defaultConfig
  log := []
  exp := []
  canda := []
  candb := []
  x := 0x00
  z := 0x00
  res := 0x00000000
  miscnt := 0x00000000
  status := 0x00
  diag := []
  rsp := []
  input := []

end Sys2Proof.Machine
end

