-- ==== Sys2Proof/Machine/Flags.lean ====
section
/-! DEFINITION. The block has no condition flags (spec/10_state.md rule R25). Its one control register is `STATUS`
(R26): the bit `TV`, the field `ERR`, and the codes that `ERR` takes (spec/60_exceptions.md rule R160). -/

namespace Sys2Proof.Machine

/-- The status code of a completed command (R160). -/
def okCode : Code := 0

/-- The status code of a refusal (R160). -/
def errCode : Err → Code
  | .illop => 1
  | .rsvd => 2
  | .sel => 3
  | .range => 4
  | .notab => 5
  | .undef => 6

/-- The layout of `STATUS` (R26): `ERR` in 7:4, zero in 3:1, `TV` in 0. -/
def packStatus (err : Code) (tv : Bool) : Byte := err ++ (0 : BitVec 3) ++ BitVec.ofBool tv

/-- `STATUS.TV` (R26): a BLDTAB has completed since reset. -/
def State.tv (s : State) : Bool := s.status.getLsbD 0

/-- `STATUS.ERR` (R26): the code of the command most recently finished. -/
def State.err (s : State) : Code := s.status.extractLsb' 4 4

/-- `STATUS` as RDR reads it: bits 3:1 are hardwired zero (R26). -/
def State.readStatus (s : State) : Byte := packStatus s.err s.tv

end Sys2Proof.Machine
end

