-- ==== Sys2Proof/Machine/Operands.lean ====
section
/-! DEFINITION. Operand forms (spec/30_encoding.md rules R62, R66; spec/20_memory.md rule R40): the selectors and
register numbers as whole bytes, the lengths of the spaces, zero extension, and the rotate of R135. -/

namespace Sys2Proof.Machine

/-- `zext_32` (R6). -/
def zext32 (v : Byte) : Word := v.setWidth 32

/-- The selector of CHECK, ROTD and ROTDX (R66); `none` is `ERR_SEL`. -/
def permSpaceOf (c : Byte) : Option PermSpace :=
  match c.toNat with
  | 0 => some .ref
  | 1 => some .canda
  | 2 => some .candb
  | _ => none

/-- The space number of RDT (R40, R66); `none` is `ERR_SEL`. -/
def spaceOf (c : Byte) : Option Space :=
  match c.toNat with
  | 0 => some .ref
  | 1 => some .canda
  | 2 => some .candb
  | 3 => some .log
  | 4 => some .exp
  | 5 => some .tabS
  | 6 => some .tabK
  | 7 => some .sigma
  | 8 => some .kbit
  | _ => none

/-- The number of cells of a space (R40). -/
def spaceLen : Space → Nat
  | .ref => 256
  | .canda => 256
  | .candb => 256
  | .log => 256
  | .exp => 256
  | .tabS => 15
  | .tabK => 17
  | .sigma => 15
  | .kbit => 4

/-- The spaces whose cells hold values only after a BLDTAB (R43, R64 step 5). -/
def spaceNeedsTables : Space → Bool
  | .log => true
  | .exp => true
  | .ref => false
  | .canda => false
  | .candb => false
  | .tabS => false
  | .tabK => false
  | .sigma => false
  | .kbit => false

/-- The register number of RDR (R66); `none` is `ERR_SEL`. -/
def regOf (r : Byte) : Option Reg :=
  match r.toNat with
  | 0 => some .status
  | 1 => some .res
  | 2 => some .miscnt
  | 3 => some .x
  | 4 => some .z
  | _ => none

/-- `rotl1` (R135): `trunc8(x << 1) OR (x >> 7)`. -/
def rotl1 (x : Byte) : Byte := (x <<< 1) ||| (x >>> 7)

end Sys2Proof.Machine
end

