-- ==== Sys2Proof/Machine/Ops.lean ====
section
/-! DEFINITION. The named operations over tables, registers and the output streams, and the two ways a command ends:
completed, or refused (spec/60_exceptions.md rule R162, the whole of the block's exception entry: R167). -/

namespace Sys2Proof.Machine

/-! ### One mutable table -/

/-- What an unlisted cell of a mutable table holds (R30): no value in `LOG` and `EXP`, `0x00` in the candidates.
The constant tables are not held as lists of cells. -/
def unlisted : Space → Option Byte
  | .canda => some 0x00
  | .candb => some 0x00
  | .log => none
  | .exp => none
  | .ref => none
  | .tabS => none
  | .tabK => none
  | .sigma => none
  | .kbit => none

/-- The listed value of a cell. -/
def Memory.find (m : Memory) (a : Nat) : Option Byte :=
  match m with
  | [] => none
  | (k, v) :: r => if k = a then some v else Memory.find r a

/-- Lists a value for a cell, keeping the indices rising. -/
def Memory.put (m : Memory) (a : Nat) (v : Byte) : Memory :=
  match m with
  | [] => [(a, v)]
  | (k, w) :: r =>
    if a < k then (a, v) :: (k, w) :: r
    else if a = k then (a, v) :: r
    else (k, w) :: Memory.put r a v

/-- Unlists a cell. -/
def Memory.drop (m : Memory) (a : Nat) : Memory :=
  match m with
  | [] => []
  | (k, v) :: r => if k = a then Memory.drop r a else (k, v) :: Memory.drop r a

/-- `T[a]` of the space `sp` (R7, R49): the listed value, else what an unlisted cell holds. -/
def Memory.read (sp : Space) (m : Memory) (a : Nat) : Option Byte :=
  match m.find a with
  | some v => some v
  | none => unlisted sp

/-- `T[a] <- v` of the space `sp` (R7). Writing what an unlisted cell holds unlists the cell. -/
def Memory.write (sp : Space) (m : Memory) (a : Nat) (v : Byte) : Memory :=
  if unlisted sp = some v then m.drop a else m.put a v

/-- `for n in 0..255: T[n] <- v`, the fill a constructor starts with (R100, R113). -/
def Memory.fill (sp : Space) (m : Memory) (v : Byte) : Memory :=
  (List.range N).foldl (fun m n => Memory.write sp m n v) m

/-- The canonical form of a table of 256 cells: indices strictly rising and below 256, and no cell listed with what an
unlisted one holds. -/
abbrev Memory.wf (sp : Space) (m : Memory) : Prop :=
  m.Pairwise (fun p q => p.1 < q.1) ∧ ∀ p ∈ m, p.1 < N ∧ unlisted sp ≠ some p.2

/-! ### Reads of the state -/

/-- An entry of a candidate: a cell that has not been written is `0x00` (R21, R30). -/
def candEntry (sp : Space) (m : Memory) (i : Byte) : Byte := (Memory.read sp m i.toNat).getD 0x00

/-- `REF[i]` (R14). -/
def State.refEntry (s : State) (i : Byte) : Byte := s.cfg.ref[i.toNat]

/-- `T[i]` of a permutation space (R40, R66): total, since every cell of these spaces holds a value. -/
def State.permEntry (s : State) (t : PermSpace) (i : Byte) : Byte :=
  match t with
  | .ref => s.refEntry i
  | .canda => candEntry .canda s.canda i
  | .candb => candEntry .candb s.candb i

/-- `S[a]` of any space (R40, R146); `none` for a cell that holds no value and for an index outside the space. -/
def State.spaceEntry (s : State) (sp : Space) (a : Nat) : Option Byte :=
  match sp with
  | .ref => s.cfg.ref[a]?
  | .canda => if a < N then Memory.read .canda s.canda a else none
  | .candb => if a < N then Memory.read .candb s.candb a else none
  | .log => if a < N then Memory.read .log s.log a else none
  | .exp => if a < N then Memory.read .exp s.exp a else none
  | .tabS => s.cfg.tabS[a]?
  | .tabK => if h : a < 17 then some (tabKAt s.cfg ⟨a, h⟩) else none
  | .sigma => s.cfg.sigma[a]?
  | .kbit => if h : a < 4 then some (kbitAt s.cfg ⟨a, h⟩) else none

/-- The value RDR reads from a register, zero-extended (R148). -/
def State.readReg (s : State) : Reg → Word
  | .status => zext32 s.readStatus
  | .res => s.res
  | .miscnt => s.miscnt
  | .x => zext32 s.x
  | .z => zext32 s.z

/-! ### DIAG records (R27) -/

/-- The record layout: `KIND`, `LABEL`, `INDEX`, `CAND`, `DATA`. -/
def diagRecord (kind label index cand : Byte) (data : Word) : DiagRecord := kind ++ label ++ index ++ cand ++ data

/-- A MISMATCH record. -/
def mismatchRecord (label index cand ref : Byte) : DiagRecord := diagRecord 0x01 label index cand (zext32 ref)

/-- A SUMMARY record. -/
def summaryRecord (label : Byte) (cnt : Word) : DiagRecord := diagRecord 0x02 label 0x00 0x00 cnt

/-- A ROTDIFF record. -/
def rotdiffRecord (x d : Byte) : DiagRecord := diagRecord 0x03 0x00 x 0x00 (zext32 d)

/-! ### How a command ends -/

/-- `STATUS.TV <- 1` (R80). -/
def State.setTv (s : State) : State := { s with status := packStatus s.err true }

/-- The end of every command (R8, R11, R23, R26): `RES` and `STATUS.ERR` are written and one response is given. -/
def State.finish (code : Code) (r : Word) (s : State) : State :=
  { s with res := r, status := packStatus code s.tv, rsp := s.rsp ++ [⟨code, r⟩] }

/-- A completed command: `ST = OK` and `RES` as its rule says (R8, R160). -/
def State.complete (r : Word) (s : State) : State := s.finish okCode r

/-- `refuse(code)` (R162): `ST` and `STATUS.ERR` take the code, `RES` is 0, nothing else changes. There is no handler
to enter and nothing to return from (R167, R168). -/
def State.refuse (e : Err) (s : State) : State := s.finish (errCode e) 0

end Sys2Proof.Machine
end

