-- ==== Sys2Proof/Machine/Access.lean ====
section
/-! DEFINITION. The access and system commands NOP, RDT and RDR (spec/46_access_and_system.md). -/

namespace Sys2Proof.Machine

/-- NOP (R145). -/
def execNop (s : State) : Host.Outcome State Fault Refusal := .next (s.complete 0)

/-- The checks of R146 after `ERR_SEL`, in the order of R64: steps (4), (5) and (6). -/
def rdtRefusal (s : State) (sp : Space) (a : Nat) : Option Err :=
  if spaceLen sp ≤ a then some .range
  else if spaceNeedsTables sp && !s.tv then some .notab
  else if sp = .log ∧ a = 0 then some .undef
  else none

/-- RDT (R146). -/
def execRdt (c index : Byte) (s : State) : Host.Outcome State Fault Refusal :=
  match spaceOf c with
  | none => .next (s.refuse .sel)
  | some sp =>
    match rdtRefusal s sp index.toNat with
    | some e => .next (s.refuse e)
    | none =>
      match s.spaceEntry sp index.toNat with
      | some v => .next (s.complete (zext32 v))
      | none => .fault .noValue

/-- RDR (R148): the register is read before the command writes anything. -/
def execRdr (reg : Byte) (s : State) : Host.Outcome State Fault Refusal :=
  match regOf reg with
  | none => .next (s.refuse .sel)
  | some r => .next (s.complete (s.readReg r))

end Sys2Proof.Machine
end

