-- ==== Sys2Proof/Machine/Analyzer.lean ====
section
/-! DEFINITION. Module rotational_diff_analyzer (spec/45_rotational_diff.md): the commands ROTD and ROTDX. -/

namespace Sys2Proof.Machine

/-- `rotdiff(T, x)` (R136) for the permutation space `t`. -/
def rotdiff (s : State) (t : PermSpace) (x : Byte) : Byte := s.permEntry t (rotl1 x) ^^^ s.permEntry t x

/-- The loop of R137: one ROTDIFF record for each `x` in 0..255, in order, after the records `d`. -/
def rotdRecords (s : State) (t : PermSpace) (d : List DiagRecord) : List DiagRecord :=
  (List.range N).foldl
    (fun d n => d ++ [rotdiffRecord (BitVec.ofNat 8 n) (rotdiff s t (BitVec.ofNat 8 n))]) d

/-- ROTD (R137). -/
def execRotd (c : Byte) (s : State) : Host.Outcome State Fault Refusal :=
  match permSpaceOf c with
  | none => .next (s.refuse .sel)
  | some t => .next (({ s with diag := rotdRecords s t s.diag } : State).complete 0)

/-- ROTDX (R138). -/
def execRotdx (c x : Byte) (s : State) : Host.Outcome State Fault Refusal :=
  match permSpaceOf c with
  | none => .next (s.refuse .sel)
  | some t => .next (s.complete (zext32 (rotdiff s t x)))

end Sys2Proof.Machine
end

