-- ==== Sys2Proof/Machine/Checker.lean ====
section
/-! DEFINITION. Module sbox_equivalence_checker (spec/44_equivalence_checker.md): the command CHECK. -/

namespace Sys2Proof.Machine

/-- What the loop of R125 works on: the records so far and the 32-bit local `cnt`. -/
structure CheckRun where
  diag : List DiagRecord
  cnt : Word
deriving DecidableEq, Repr

/-- One iteration of R125 at index `i`. -/
def checkStep (s : State) (t : PermSpace) (label : Byte) (r : CheckRun) (i : Nat) : CheckRun :=
  let b := BitVec.ofNat 8 i
  if s.permEntry t b = s.refEntry b then r
  else ⟨r.diag ++ [mismatchRecord label b (s.permEntry t b) (s.refEntry b)], r.cnt + 1⟩

/-- The loop of R125, indices 0..255 in order. -/
def checkLoop (s : State) (t : PermSpace) (label : Byte) : CheckRun :=
  (List.range N).foldl (checkStep s t label) ⟨s.diag, 0⟩

/-- The end of a CHECK (R125): the SUMMARY record, `MISCNT` and `RES`. -/
def State.putCheck (s : State) (label : Byte) (r : CheckRun) : State :=
  { s with diag := r.diag ++ [summaryRecord label r.cnt], miscnt := r.cnt }

/-- CHECK (R125). A mismatch is no error (R127). -/
def execCheck (c label : Byte) (s : State) : Host.Outcome State Fault Refusal :=
  match permSpaceOf c with
  | none => .next (s.refuse .sel)
  | some t => .next ((s.putCheck label (checkLoop s t label)).complete (checkLoop s t label).cnt)

end Sys2Proof.Machine
end

