-- ==== Sys2Proof/Machine/GfMult.lean ====
section
/-! DEFINITION. Module gf28_mult (spec/41_gf28_mult.md): the LFSR step, the field product, and the commands MULX and
GFMUL. -/

namespace Sys2Proof.Machine

/-- The LFSR step `mulx` (R90): multiplication by the generator. The test is on bit 7 before the shift. -/
def mulx (x : Byte) : Byte := (x <<< 1) ^^^ (if x.getLsbD 7 then FEEDBACK else 0x00)

/-- One iteration of the loop of R93, over the pair (`r`, `t`). -/
def gfmulStep (b : Byte) (p : Byte × Byte) (n : Nat) : Byte × Byte :=
  (if b.getLsbD n then p.1 ^^^ p.2 else p.1, mulx p.2)

/-- The field product (R93): shift-and-add over the bits of `b`, least significant first. -/
def gfmul (a b : Byte) : Byte := ((List.range 8).foldl (gfmulStep b) (0x00, a)).1

/-- MULX (R91). -/
def execMulx (a : Byte) (s : State) : Host.Outcome State Fault Refusal :=
  .next (s.complete (zext32 (mulx a)))

/-- GFMUL (R93). -/
def execGfmul (a b : Byte) (s : State) : Host.Outcome State Fault Refusal :=
  .next (s.complete (zext32 (gfmul a b)))

end Sys2Proof.Machine
end

