-- ==== Sys2Proof/Machine/Constructor.lean ====
section
/-! DEFINITION. Module lfsr_permutation_constructor (spec/42_lfsr_constructor.md): the 15 x 17 walk and the command
CDIR. The loop keeps the shape of R100, the value computed at column 16 and then overwritten included (R104). -/

namespace Sys2Proof.Machine

/-- What the walk of R100 works on: `CANDA` and the two cursor registers. -/
structure DirectWalk where
  canda : Memory
  x : Byte
  z : Byte
deriving DecidableEq, Repr

/-- One inner step at row `i`, column `j` (R100). -/
def directColumn (c : Config) (i : Fin 15) (w : DirectWalk) (j : Fin 17) : DirectWalk where
  canda := Memory.write .canda w.canda w.x.toNat w.z
  x := mulx w.x
  z := tabKAt c j ^^^ c.tabS[i]

/-- One row: seventeen columns, then the reset of `Z` by the row that has ended (R100, R105). -/
def directRow (c : Config) (w : DirectWalk) (i : Fin 15) : DirectWalk :=
  { (List.finRange COLS).foldl (directColumn c i) w with z := tabKAt c (i.castLE (by decide)) }

/-- The whole of R100 on the table: zero-fill, entry 0, and fifteen rows. -/
def constructDirect (c : Config) (canda : Memory) : DirectWalk :=
  (List.finRange ROWS).foldl (directRow c)
    ⟨Memory.write .canda (Memory.fill .canda canda 0x00) 0 P0, GEN_START, Z0⟩

/-- The state after the walk. -/
def State.putDirect (s : State) (w : DirectWalk) : State := { s with canda := w.canda, x := w.x, z := w.z }

/-- CDIR (R100). -/
def execCdir (s : State) : Host.Outcome State Fault Refusal :=
  .next ((s.putDirect (constructDirect s.cfg s.canda)).complete 0)

end Sys2Proof.Machine
end

