-- ==== Sys2Proof/Machine/Decomposer.lean ====
section
/-! DEFINITION. Module discrete_log_decomposer (spec/43_dlog_decomposer.md): the affine map kappa, the decomposed
constructor, and the commands KAPPA and CDLOG. -/

namespace Sys2Proof.Machine

/-- The term of `kappa` for bit `b` of `v` (R110). -/
def kappaTerm (c : Config) (v : Byte) (b : Fin 4) : Byte := if v.getLsbD b then kbitAt c b else 0x00

/-- `kappa` (R110): bits 7:4 of `v` are ignored. -/
def kappa (c : Config) (v : Byte) : Byte :=
  KAPPA_OFF ^^^ kappaTerm c v 0 ^^^ kappaTerm c v 1 ^^^ kappaTerm c v 2 ^^^ kappaTerm c v 3

/-- `EXP[17 * SIGMA[row]]` (R113). -/
def rowTerm (c : Config) (exp : Memory) (row : Fin 15) : Except Fault Byte :=
  let a := 17 * (c.sigma[row]).toNat
  if a < N then
    match Memory.read .exp exp a with
    | some v => .ok v
    | none => .error .noValue
  else .error .indexRange

/-- `out` for the input `k`, from `j = LOG[k] - 1` (R113): the main term where `j % 17 < 16`, else the boundary term
(R114). -/
def decomposedEntry (c : Config) (exp log : Memory) (k : Nat) : Except Fault Byte :=
  match Memory.read .log log k with
  | none => .error .noValue
  | some l =>
    if 1 ≤ l.toNat then
      let j := l.toNat - 1
      if h : j / 17 < 15 then
        if j % 17 < 16 then
          match rowTerm c exp ⟨j / 17, h⟩ with
          | .ok e => .ok (kappa c (BitVec.ofNat 8 (j % 17)) ^^^ e)
          | .error f => .error f
        else .ok (kappa c (BitVec.ofNat 8 (j / 17)))
      else .error .indexRange
    else .error .indexRange

/-- The loop of R113 over the inputs `ks`, in order. -/
def decomposeFrom (c : Config) (exp log : Memory) (ks : List Nat) (candb : Memory) : Except Fault Memory :=
  match ks with
  | [] => .ok candb
  | k :: r =>
    match decomposedEntry c exp log k with
    | .ok out => decomposeFrom c exp log r (Memory.write .candb candb k out)
    | .error f => .error f

/-- The whole of R113 on the table: zero-fill, entry 0, and the inputs 1..255. -/
def constructDecomposed (c : Config) (exp log candb : Memory) : Except Fault Memory :=
  decomposeFrom c exp log (List.range' 1 255) (Memory.write .candb (Memory.fill .candb candb 0x00) 0 P0)

/-- KAPPA (R111). -/
def execKappa (v : Byte) (s : State) : Host.Outcome State Fault Refusal :=
  .next (s.complete (zext32 (kappa s.cfg v)))

/-- CDLOG (R113). -/
def execCdlog (s : State) : Host.Outcome State Fault Refusal :=
  if s.tv then
    match constructDecomposed s.cfg s.exp s.log s.candb with
    | .ok m => .next (({ s with candb := m } : State).complete 0)
    | .error f => .fault f
  else .next (s.refuse .notab)

end Sys2Proof.Machine
end

