-- ==== Sys2Proof/Machine/GfTables.lean ====
section
/-! DEFINITION. Modules gf28_lfsr_logtable and gf28_exptable (spec/40_gf28_tables.md): the walk that fills `LOG` and
`EXP`, and the command BLDTAB. -/

namespace Sys2Proof.Machine

/-- What the walk of R80 works on: the register `X` and the two tables. -/
structure LfsrWalk where
  x : Byte
  exp : Memory
  log : Memory
deriving DecidableEq, Repr

/-- One iteration of R80: `EXP[i] <- X`, `LOG[X] <- i`, `X <- mulx(X)`. -/
def buildStep (w : LfsrWalk) (i : Nat) : LfsrWalk where
  exp := Memory.write .exp w.exp i w.x
  log := Memory.write .log w.log w.x.toNat (BitVec.ofNat 8 i)
  x := mulx w.x

/-- The 256 iterations of R80. -/
def buildTables (exp log : Memory) : LfsrWalk :=
  (List.range BUILD_ITER).foldl buildStep ⟨GEN_START, exp, log⟩

/-- The state after the walk. -/
def State.putWalk (s : State) (w : LfsrWalk) : State := { s with x := w.x, exp := w.exp, log := w.log }

/-- BLDTAB (R80). -/
def execBldtab (s : State) : Host.Outcome State Fault Refusal :=
  .next ((s.putWalk (buildTables s.exp s.log)).setTv.complete 0)

end Sys2Proof.Machine
end

