-- ==== Sys2Proof/Machine/Dispatch.lean ====
section
/-! DEFINITION. The meaning of each command of GBX-1 (spec/30_encoding.md rule R63), one arm per row of the opcode
table. -/

namespace Sys2Proof.Machine

def exec (i : Instr) (s : State) : Host.Outcome State Fault Refusal :=
  match i with
  | .nop => Sys2Proof.Machine.execNop s
  | .bldtab => Sys2Proof.Machine.execBldtab s
  | .mulx a => Sys2Proof.Machine.execMulx a s
  | .gfmul a b => Sys2Proof.Machine.execGfmul a b s
  | .cdir => Sys2Proof.Machine.execCdir s
  | .cdlog => Sys2Proof.Machine.execCdlog s
  | .kappa v => Sys2Proof.Machine.execKappa v s
  | .check c label => Sys2Proof.Machine.execCheck c label s
  | .rotd c => Sys2Proof.Machine.execRotd c s
  | .rotdx c x => Sys2Proof.Machine.execRotdx c x s
  | .rdt c index => Sys2Proof.Machine.execRdt c index s
  | .rdr reg => Sys2Proof.Machine.execRdr reg s

end Sys2Proof.Machine
end

