-- ==== Sys2Proof/Machine/Inputs.lean ====
section
/-! DEFINITION. What the host's inputs do (spec/10_state.md rule R11, spec/60_exceptions.md rule R184,
spec/70_reset_and_hazards.md rules R190 and R191): a word on `CMD`, a pulse on `RST`, or nothing. -/

namespace Sys2Proof.Machine

/-- A word taken from `CMD` (R64): refused by the decoder, or the command it encodes. -/
def runWord (w : Word) (s : State) : Host.Outcome State Fault Refusal :=
  match decode w with
  | .ok i => exec i s
  | .error e => .next (s.refuse e)

/-- A pulse on `RST` (R190): everything at its reset value, the constants unchanged. What the host sends later is not
the block's and stays; the responses start again with `DIAG` (assumption 6). -/
def hardReset (s : State) : State := { State.reset with cfg := s.cfg, input := s.input }

/-- The next thing the host sends, and the state without it; with nothing sent the block idles, all state kept
(R183, R191). -/
def takeInput (s : State) : Host.Outcome State Fault Refusal :=
  match s.input with
  | [] => .next s
  | .rst :: rest => .next (hardReset { s with input := rest })
  | .cmd w :: rest => runWord w { s with input := rest }

/-- The host sends the word `w`, of `nbits` bits, next (R11, R60); the block has no program memory (R24). -/
def sendWord (s : State) (nbits w : Nat) : State :=
  { s with input := .cmd (BitVec.ofNat 32 (w % 2 ^ nbits)) :: s.input }

end Sys2Proof.Machine
end

