-- ==== Sys2Proof/Machine/Step.lean ====
section
/-! DEFINITION. One step of the block: one whole command, one hard reset, or one idle step (spec/00_scope.md rule R8,
spec/70_reset_and_hazards.md rule R198). -/

namespace Sys2Proof.Machine

/-- One step (R8, R24): what the host sends next is taken and acted on. -/
def step (s : State) : Host.Outcome State Fault Refusal := takeInput s

/-- The state in which the next word `step` takes is `w` (assumption 4). -/
def State.withFetchWord (s : State) (nbits w : Nat) : State := sendWord s nbits w

end Sys2Proof.Machine
end

