-- ==== Sys2Proof/WellFormed.lean ====
section
/-! DEFINITION. Which commands have legal selectors, register numbers and indices (spec/30_encoding.md rule R66,
spec/20_memory.md rule R40). Written from the tables of R40 and R66 as bounds on the operand bytes, apart from the
machine's own admission checks. -/

namespace Sys2Proof

/-- The number of cells of the space numbered `c` (R40); a reserved space has none. -/
def cellsOfSpace (c : Byte) : Nat :=
  if c.toNat ≤ 4 then 256
  else if c.toNat = 5 then 15
  else if c.toNat = 6 then 17
  else if c.toNat = 7 then 15
  else if c.toNat = 8 then 4
  else 0

/-- The selector or register number is legal for the command (R66). -/
def Instr.selectorLegal : Instr → Bool
  | .nop => true
  | .bldtab => true
  | .mulx _ => true
  | .gfmul _ _ => true
  | .cdir => true
  | .cdlog => true
  | .kappa _ => true
  | .check c _ => c.toNat ≤ 2
  | .rotd c => c.toNat ≤ 2
  | .rotdx c _ => c.toNat ≤ 2
  | .rdt c _ => c.toNat ≤ 8
  | .rdr r => r.toNat ≤ 4

/-- The RDT index is one of its space's cells (R40, R42). -/
def Instr.indexLegal : Instr → Bool
  | .nop => true
  | .bldtab => true
  | .mulx _ => true
  | .gfmul _ _ => true
  | .cdir => true
  | .cdlog => true
  | .kappa _ => true
  | .check _ _ => true
  | .rotd _ => true
  | .rotdx _ _ => true
  | .rdt c a => a.toNat < cellsOfSpace c
  | .rdr _ => true

/-- A well-formed command: none of the checks (3) and (4) of R64 refuses it. -/
def Instr.wf (i : Instr) : Bool := i.selectorLegal && i.indexLegal

end Sys2Proof
end

