-- ==== Sys2Proof/Safety.lean ====
section
/-! DEFINITION. What claims are stated in: the powers of the generator, the contents a completed BLDTAB, CDIR and CDLOG
leave (as closed forms of the spec, apart from the loops that compute them), the invariant of the block, the verdict on
any command word, and the states in which a command ends. -/

namespace Sys2Proof.Machine

/-- The `n`-th power of the generator (spec/40_gf28_tables.md rule R82): `mulx` applied `n` times to `GEN_START`. -/
def genPow (n : Nat) : Byte := mulx^[n] GEN_START

/-- `LOG` and `EXP` hold what R81 and R82 say of a completed BLDTAB. -/
structure TablesBuilt (exp log : Memory) : Prop where
  /-- `EXP[i]` is the `i`-th power of the generator, `i` in 0..255 (R82). -/
  expEntry : ∀ i, i < 256 → Memory.read .exp exp i = some (genPow i)
  /-- `LOG[EXP[e]] = e`, `e` in 1..255 (R81). -/
  logEntry : ∀ e, 1 ≤ e → e ≤ 255 → Memory.read .log log (genPow e).toNat = some (BitVec.ofNat 8 e)
  /-- `LOG[0]` holds no value (R20). -/
  logZero : Memory.read .log log 0 = none

/-- `CANDA` holds the closed form of spec/42_lfsr_constructor.md rule R101 for the constants `c`. -/
structure DirectBuilt (c : Config) (canda : Memory) : Prop where
  zero : Memory.read .canda canda 0 = some 0xFC
  first : Memory.read .canda canda 0x01 = some 0xEE
  /-- column 0 of the rows 1..14: the value set by the reset after the row before. -/
  rowStart : ∀ i : Fin 14,
    Memory.read .canda canda (genPow (17 * (i.val + 1))).toNat = some (tabKAt c (i.castLE (by decide)))
  /-- columns 1..16 of the rows 0..14. -/
  inner : ∀ (i : Fin 15) (j : Fin 16),
    Memory.read .canda canda (genPow (17 * i.val + j.val + 1)).toNat = some (c.tabK[j] ^^^ c.tabS[i])

/-- `CANDB` holds what spec/43_dlog_decomposer.md rules R114 and R116 say, for the constants `c`: position `e = LOG[k]` of
the index `k`, split into row and column. -/
structure DecomposedBuilt (c : Config) (candb : Memory) : Prop where
  zero : Memory.read .candb candb 0 = some 0xFC
  /-- the main term, `col < 16` -/
  main : ∀ (row : Fin 15) (col : Fin 16),
    Memory.read .candb candb (genPow (17 * row.val + col.val + 1)).toNat =
      some (kappa c (BitVec.ofNat 8 col.val) ^^^ genPow (17 * (c.sigma[row]).toNat))
  /-- the boundary term, `col = 16` -/
  boundary : ∀ row : Fin 15,
    Memory.read .candb candb (genPow (17 * (row.val + 1))).toNat = some (kappa c (BitVec.ofNat 8 row.val))

/-- `KIND` of a DIAG record (R27). -/
def recordKind (r : DiagRecord) : Byte := r.extractLsb' 56 8

/-- The invariant of the block. Every reachable state meets it; in a state that meets it no step stops. -/
structure Inv (s : State) : Prop where
  /-- `SIGMA` is a permutation of {0..14} (R18). -/
  cfgWf : s.cfg.wf
  /-- the tables are in canonical form -/
  logWf : Memory.wf .log s.log
  expWf : Memory.wf .exp s.exp
  candaWf : Memory.wf .canda s.canda
  candbWf : Memory.wf .candb s.candb
  /-- before a BLDTAB the tables hold no value (R20, R43) -/
  tablesEmpty : s.tv = false → s.exp = [] ∧ s.log = []
  /-- `TV` means that the tables are built (R26, R81, R82) -/
  tablesBuilt : s.tv = true → TablesBuilt s.exp s.log
  /-- `STATUS[3:1]` is hardwired zero (R26) -/
  statusReserved : s.status.extractLsb' 1 3 = 0
  /-- codes 7 to 15 are never produced (R160) -/
  errLegal : s.err.toNat ≤ 6
  /-- `MISCNT` never exceeds 256 (R23) -/
  miscntBound : s.miscnt.toNat ≤ 256
  /-- no other `KIND` is ever emitted (R27) -/
  diagKinds : ∀ r ∈ s.diag, recordKind r = 0x01 ∨ recordKind r = 0x02 ∨ recordKind r = 0x03
  /-- the last response gave `ST` and `RES` as the registers hold them (R11, R160) -/
  lastResponse : ∀ r, s.rsp.getLast? = some r → r.st = s.err ∧ r.res = s.res

/-- The contents the mutable tables can have (spec/46_access_and_system.md rule R147): the reset contents, or those a
completed constructor leaves. -/
structure ContentsFinite (s : State) : Prop where
  canda : s.canda = [] ∨ DirectBuilt s.cfg s.canda
  candb : s.candb = [] ∨ DecomposedBuilt s.cfg s.candb
  tables : (s.exp = [] ∧ s.log = []) ∨ TablesBuilt s.exp s.log

/-- The codes a command can end with (spec/60_exceptions.md rule R163), of those that are decided after the word is
decoded; `ERR_ILLOP` and `ERR_RSVD` are the decoder's. -/
def possibleCodes : Instr → List Code
  | .nop => [0]
  | .bldtab => [0]
  | .cdir => [0]
  | .mulx _ => [0]
  | .gfmul _ _ => [0]
  | .kappa _ => [0]
  | .cdlog => [0, 5]
  | .check _ _ => [0, 3]
  | .rotd _ => [0, 3]
  | .rotdx _ _ => [0, 3]
  | .rdt _ _ => [0, 3, 4, 5, 6]
  | .rdr _ => [0, 3]

/-- A legal opcode with a must-be-zero field that is not zero (R61, R65), field by field. -/
abbrev reservedFieldSet (w : Word) : Prop :=
  let o := (fieldOpc w).toNat
  ((o = 0x00 ∨ o = 0x01 ∨ o = 0x04 ∨ o = 0x05) ∧ (fieldA w ≠ 0 ∨ fieldB w ≠ 0 ∨ fieldC w ≠ 0)) ∨
  ((o = 0x02 ∨ o = 0x06 ∨ o = 0x0B) ∧ (fieldB w ≠ 0 ∨ fieldC w ≠ 0)) ∨
  (o = 0x03 ∧ fieldC w ≠ 0) ∨
  (o = 0x08 ∧ (fieldA w ≠ 0 ∨ fieldB w ≠ 0)) ∨
  ((o = 0x07 ∨ o = 0x09 ∨ o = 0x0A) ∧ fieldB w ≠ 0)

/-- The selector or register number of a word is not legal for its command (R66). -/
abbrev illegalSelector (w : Word) : Prop :=
  let o := (fieldOpc w).toNat
  ((o = 0x07 ∨ o = 0x08 ∨ o = 0x09) ∧ 2 < (fieldC w).toNat) ∨
  (o = 0x0A ∧ 8 < (fieldC w).toNat) ∨
  (o = 0x0B ∧ 4 < (fieldA w).toNat)

/-- The status any word ends with (R64, R166): the first check that fails decides the code. Written from the fields,
apart from the decoder and the commands. -/
def verdict (w : Word) (tv : Bool) : Code :=
  let o := (fieldOpc w).toNat
  if 0x0B < o then 1
  else if reservedFieldSet w then 2
  else if illegalSelector w then 3
  else if o = 0x0A ∧ cellsOfSpace (fieldC w) ≤ (fieldA w).toNat then 4
  else if (o = 0x05 ∨ (o = 0x0A ∧ (fieldC w = 3 ∨ fieldC w = 4))) ∧ tv = false then 5
  else if o = 0x0A ∧ fieldC w = 3 ∧ fieldA w = 0 then 6
  else 0

/-- The table of R163, with `OK`, for the command of an opcode. -/
def codesOfOpcode (o : Nat) : List Code :=
  match o with
  | 0x05 => [0, 2, 5]
  | 0x07 => [0, 2, 3]
  | 0x08 => [0, 2, 3]
  | 0x09 => [0, 2, 3]
  | 0x0A => [0, 2, 3, 4, 5, 6]
  | 0x0B => [0, 2, 3]
  | _ => [0, 2]

/-- The state a completed command leaves when it changes nothing of its own: `RES`, `STATUS.ERR = 0` (the rest of
`STATUS` being `TV` and zeros) and one response (R8, R11, R23, R26). -/
def okEnd (s : State) (r : Word) : State :=
  { s with res := r, status := 0#7 ++ BitVec.ofBool s.tv, rsp := s.rsp ++ [⟨0#4, r⟩] }

/-- The state a command refused with `code` leaves (R162): `RES = 0`, `STATUS.ERR = code` and one response. -/
def errEnd (s : State) (code : Code) : State :=
  { s with res := 0, status := code ++ 0#3 ++ BitVec.ofBool s.tv, rsp := s.rsp ++ [⟨code, 0⟩] }

/-- The legal selectors of CHECK, ROTD and ROTDX and the tables they name (R66). -/
def permSelectors : List (Byte × PermSpace) := [(0, .ref), (1, .canda), (2, .candb)]

/-- The state `s` with another value of the open parameter `TAB_K16` (R16). -/
def withTabK16 (s : State) (v : Byte) : State := { s with cfg := { s.cfg with tabK16 := v } }

/-- The constants are the defaults of R14 to R18, `TAB_K16` being any value. -/
def defaultConstants (c : Config) : Prop := ∃ v, c = { defaultConfig with tabK16 := v }

/-- The input `k` of CDLOG takes the boundary branch (spec/43_dlog_decomposer.md rules R113, R114): its entry, unlike the
main term, does not depend on what `EXP` holds. -/
def takesBoundary (s : State) (k : Nat) : Prop :=
  ∀ exp : Memory, decomposedEntry s.cfg exp s.log k = decomposedEntry s.cfg s.exp s.log k

/-- A byte read as a polynomial over GF(2) (spec/41_gf28_mult.md rule R92). -/
noncomputable def bytePoly (a : Byte) : Polynomial (ZMod 2) :=
  ∑ n ∈ Finset.range 8, if a.getLsbD n then Polynomial.X ^ n else 0

/-- The defining polynomial `m(x) = x^8 + x^4 + x^3 + x^2 + 1` (R92). -/
noncomputable def fieldPoly : Polynomial (ZMod 2) :=
  Polynomial.X ^ 8 + Polynomial.X ^ 4 + Polynomial.X ^ 3 + Polynomial.X ^ 2 + 1

end Sys2Proof.Machine
end

