-- ==== Sys2Proof/Certificates/Slice0/Obligations.lean ====
section
/-! DEFINITION. The statements for the provers. Each formalises rules of spec/, named in its docstring. -/

open Sys2Proof Sys2Proof.Machine

/-! ### Encoding -/

/-- The twelve example words of R68 decode to the commands they stand for. -/
def Obligations.ExampleWordsDecode : Prop :=
  decode 0x00000000 = .ok .nop ∧
  decode 0x01000000 = .ok .bldtab ∧
  decode 0x02000080 = .ok (.mulx 0x80) ∧
  decode 0x03008357 = .ok (.gfmul 0x57 0x83) ∧
  decode 0x04000000 = .ok .cdir ∧
  decode 0x05000000 = .ok .cdlog ∧
  decode 0x06000001 = .ok (.kappa 1) ∧
  decode 0x07010001 = .ok (.check 1 0x01) ∧
  decode 0x08000000 = .ok (.rotd 0) ∧
  decode 0x09000081 = .ok (.rotdx 0 0x81) ∧
  decode 0x0A040008 = .ok (.rdt 4 8) ∧
  decode 0x0B000002 = .ok (.rdr 2)

/-- Decoding the word of a command gives the command back, with every operand at every value (R60 to R63). -/
def Obligations.EncodeThenDecode : Prop := ∀ i : Instr, decode (encode i) = .ok i

/-- Every word the decoder accepts is the one word of its command (R63, R65: no bit of it is ignored by the decoder and
no word executes as another command). -/
def Obligations.DecodeThenEncode : Prop := ∀ (w : Word) (i : Instr), decode w = .ok i → encode i = w

/-- The decoder's verdict on each of the 2^32 words (R61, R64 steps (1) and (2), R65). -/
def Obligations.DecoderVerdict : Prop :=
  ∀ w : Word,
    (decode w = .error .illop ↔ 0x0B < (fieldOpc w).toNat) ∧
    (decode w = .error .rsvd ↔ reservedFieldSet w) ∧
    ((∃ i, decode w = .ok i) ↔ (fieldOpc w).toNat ≤ 0x0B ∧ ¬ reservedFieldSet w)

/-! ### The step -/

/-- A word on `CMD` that decodes to a command: the step is the command, in the state without that word (R8, R11). -/
def Obligations.StepRunsDecodedCommand : Prop :=
  ∀ (s : State) (w : Word) (rest : List HostInput) (i : Instr),
    s.input = .cmd w :: rest → decode w = .ok i → step s = exec i { s with input := rest }

/-- A word with an unknown opcode is refused with `ERR_ILLOP`, one with a must-be-zero field set with `ERR_RSVD`; the
rest of the state is unchanged (R65, R160, R162). -/
def Obligations.UndecodedWordIsRefused : Prop :=
  ∀ (s : State) (w : Word) (rest : List HostInput),
    s.input = .cmd w :: rest →
      (0x0B < (fieldOpc w).toNat → step s = .next (errEnd { s with input := rest } 1)) ∧
      (reservedFieldSet w → step s = .next (errEnd { s with input := rest } 2))

/-- With nothing sent by the host the block idles with all state kept (R183, R191). That the model takes idle steps at
all is its own choice (assumption 5). -/
def Obligations.IdleKeepsState : Prop := ∀ s : State, s.input = [] → step s = .next s

/-- A pulse on `RST` puts every piece of state to its reset value and leaves the constants (R190, R30). What becomes of
the list of responses is the model's choice (assumption 6) and is not said here. -/
def Obligations.HardResetValues : Prop :=
  ∀ (s : State) (rest : List HostInput), s.input = .rst :: rest →
    ∃ t, step s = .next t ∧ t.cfg = s.cfg ∧ t.input = rest ∧
      (∀ a, a < 256 → Memory.read .log t.log a = none ∧ Memory.read .exp t.exp a = none ∧
        Memory.read .canda t.canda a = some 0x00 ∧ Memory.read .candb t.candb a = some 0x00) ∧
      t.x = 0x00 ∧ t.z = 0x00 ∧ t.res = 0x00000000 ∧ t.miscnt = 0x00000000 ∧ t.status = 0x00 ∧ t.diag = []

/-- The state after reset (R30): every table, register and stream, and the constants of R13 to R18 at their values. That
`REF`, `TAB_S`, `TAB_K[0..15]`, `SIGMA` and `KBIT[1..3]` have the defaults of R14 to R18, which the source does not print,
is the model's choice (log entry 2); `cfg = defaultConfig` also names `TAB_K16`, which R16 leaves open and the model
holds as one opaque constant (log entry 1). -/
def Obligations.ResetStateValues : Prop :=
  (∀ a, a < 256 → Memory.read .log State.reset.log a = none ∧ Memory.read .exp State.reset.exp a = none ∧
    Memory.read .canda State.reset.canda a = some 0x00 ∧ Memory.read .candb State.reset.candb a = some 0x00) ∧
  State.reset.x = 0x00 ∧ State.reset.z = 0x00 ∧ State.reset.res = 0x00000000 ∧
  State.reset.miscnt = 0x00000000 ∧ State.reset.status = 0x00 ∧ State.reset.tv = false ∧ State.reset.err = 0 ∧
  State.reset.diag = [] ∧ State.reset.cfg = defaultConfig ∧
  State.reset.refEntry 0 = 0xFC ∧ State.reset.refEntry 1 = 0xEE ∧
  State.reset.cfg.tabS.toList =
    [0x01, 0xDD, 0x92, 0x4F, 0x93, 0x99, 0x0B, 0x44, 0xD6, 0xD7, 0x4E, 0xDC, 0x98, 0x0A, 0x45] ∧
  State.reset.cfg.tabK.toList =
    [0xDC, 0xCE, 0xFA, 0xE8, 0xF8, 0xEA, 0xDE, 0xCC, 0xEC, 0xFE, 0xCA, 0xD8, 0xC8, 0xDA, 0xEE, 0xFC] ∧
  State.reset.cfg.sigma.toList = [0, 12, 9, 8, 7, 4, 14, 6, 5, 10, 2, 11, 1, 3, 13] ∧
  kbitAt State.reset.cfg 0 = 0x12 ∧ kbitAt State.reset.cfg 1 = 0x26 ∧ kbitAt State.reset.cfg 2 = 0x24 ∧
  kbitAt State.reset.cfg 3 = 0x30 ∧
  FEEDBACK = 0x1D ∧ GEN_START = 0x01 ∧ P0 = 0xFC ∧ Z0 = 0xEE ∧ KAPPA_OFF = 0xDC

/-- The constraints that tie the default constants together (R19), and that the default `REF` holds each byte once. -/
def Obligations.DefaultConstantsAgree : Prop :=
  ∀ s : State, defaultConstants s.cfg →
    Function.Bijective s.refEntry ∧
    tabKAt s.cfg 0 = s.refEntry (genPow 17) ∧
    (∀ i : Fin 15, s.cfg.tabS[i] = s.refEntry (genPow (17 * i.val + 1)) ^^^ tabKAt s.cfg 0) ∧
    (∀ j : Fin 16, s.cfg.tabK[j] = s.refEntry (genPow (j.val + 1)) ^^^ s.cfg.tabS[0]) ∧
    (∀ r : Fin 15, kappa s.cfg (BitVec.ofNat 8 r.val) = s.refEntry (genPow (17 * (r.val + 1)))) ∧
    (∀ r : Fin 15,
      genPow (17 * (s.cfg.sigma[r]).toNat) = s.refEntry (genPow (17 * r.val + 1)) ^^^ kappa s.cfg 0)

/-! ### Invariants and whole-machine rules -/

/-- The state after reset meets the invariant. -/
def Obligations.ResetMeetsInvariant : Prop := Inv State.reset ∧ ContentsFinite State.reset

/-- Every step keeps the invariant: the canonical form of the tables, what `TV` says about them (R20, R26, R81, R82),
the hardwired bits of `STATUS` (R26), the bounds of `MISCNT` (R23) and `ERR` (R160), the kinds of records (R27). -/
def Obligations.StepKeepsInvariant : Prop := ∀ s t : State, Inv s → step s = .next t → Inv t

/-- From a state that meets the invariant a step always gives a next state: a command completes or is refused and
nothing stops the block (R8, R168). -/
def Obligations.StepNeverStops : Prop := ∀ s : State, Inv s → ∃ t, step s = .next t

/-- Every command sequence runs to its end: `n` things sent by the host take `n` steps, and where all are command words
there is one response for each (R11, R168, R198). -/
def Obligations.CommandSequencesRunToTheirEnd : Prop :=
  ∀ s : State, Inv s →
    ∃ t : State, Host.Core.run Sys2Proof.core s.input.length s = .next t ∧ t.input = [] ∧ Inv t ∧
      ((∀ h ∈ s.input, ∃ w, h = .cmd w) → t.rsp.length = s.rsp.length + s.input.length)

/-- The contents of every mutable table are the reset contents or those a completed constructor leaves (R147). -/
def Obligations.MutableTableContentsStayFinite : Prop :=
  ∀ s t : State, Inv s → ContentsFinite s → step s = .next t → ContentsFinite t

/-- No step writes the constants (R13, R41). -/
def Obligations.StepKeepsConstants : Prop := ∀ s t : State, step s = .next t → t.cfg = s.cfg

/-- Which command writes which state, for every command and every state: the `written by` column of R12 (with R22,
R23, R26, R41, R44). -/
def Obligations.OnlyTheNamedCommandWrites : Prop :=
  ∀ (i : Instr) (s t : State), exec i s = .next t →
    t.cfg = s.cfg ∧ t.input = s.input ∧
    (i ≠ .bldtab → t.log = s.log ∧ t.exp = s.exp ∧ t.tv = s.tv) ∧
    (i ≠ .bldtab → i ≠ .cdir → t.x = s.x) ∧
    (i ≠ .cdir → t.z = s.z ∧ t.canda = s.canda) ∧
    (i ≠ .cdlog → t.candb = s.candb) ∧
    ((∀ c l, i ≠ .check c l) → t.miscnt = s.miscnt) ∧
    ((∀ c l, i ≠ .check c l) → (∀ c, i ≠ .rotd c) → t.diag = s.diag)

/-- A command, or a word on `CMD`, that ends with an error code changes `RES`, `STATUS.ERR` and gives its response, and
nothing else (R162). -/
def Obligations.RefusedCommandChangesNothingElse : Prop :=
  (∀ (i : Instr) (s t : State), exec i s = .next t → t.err ≠ 0 → t = errEnd s t.err) ∧
  (∀ (s t : State) (w : Word) (rest : List HostInput), s.input = .cmd w :: rest → step s = .next t → t.err ≠ 0 →
    t = errEnd { s with input := rest } t.err)

/-- Each command gives exactly one response, after its last record, with the `RES` it leaves and the code it leaves in
`STATUS.ERR`; codes 7 to 15 are never produced and bits 3:1 of `STATUS` are zero (R11, R26, R160). -/
def Obligations.OneResponsePerCommand : Prop :=
  ∀ (i : Instr) (s t : State), exec i s = .next t →
    t.rsp = s.rsp ++ [⟨t.err, t.res⟩] ∧ t.err.toNat ≤ 6 ∧ t.status.extractLsb' 1 3 = 0

/-- Which command can end with which code (R163): no other code, and each of these on some word in some state;
`ERR_ILLOP` is the outcome of a word that selects no command. -/
def Obligations.CodesEachCommandCanEndWith : Prop :=
  (∀ (s t : State) (w : Word) (rest : List HostInput), s.input = .cmd w :: rest → step s = .next t →
    if 0x0B < (fieldOpc w).toNat then t.err = 1 else t.err ∈ codesOfOpcode (fieldOpc w).toNat) ∧
  (∀ o : Byte, o.toNat ≤ 0x0B → ∀ code ∈ codesOfOpcode o.toNat,
    ∃ (s t : State) (w : Word), s.input = [.cmd w] ∧ fieldOpc w = o ∧ step s = .next t ∧ t.err = code)

/-- The whole of R64: on every one of the 2^32 words the first check that fails decides the code (R166) and the block is
unchanged but for the refusal (R162); where none fails the word is a command and it completes. -/
def Obligations.FirstFailingCheckDecidesTheCode : Prop :=
  ∀ (s : State) (w : Word) (rest : List HostInput), Inv s → s.input = .cmd w :: rest →
    (verdict w s.tv ≠ 0 → step s = .next (errEnd { s with input := rest } (verdict w s.tv))) ∧
    (verdict w s.tv = 0 → ∃ i t, decode w = .ok i ∧ exec i { s with input := rest } = .next t ∧
      step s = .next t ∧ t.err = 0)

/-- `TV` is set by BLDTAB alone and cleared by reset alone (R26). -/
def Obligations.TvIsClearedOnlyByReset : Prop :=
  ∀ s t : State, step s = .next t →
    (s.tv = true → t.tv = false → ∃ rest, s.input = .rst :: rest) ∧
    (s.tv = false → t.tv = true → ∃ rest, s.input = .cmd 0x01000000 :: rest)

/-- `DIAG` only grows, and by records of the three kinds (R27). -/
def Obligations.DiagOnlyGrows : Prop :=
  ∀ (i : Instr) (s t : State), exec i s = .next t →
    ∃ d, t.diag = s.diag ++ d ∧ ∀ r ∈ d, recordKind r = 0x01 ∨ recordKind r = 0x02 ∨ recordKind r = 0x03

/-- The open parameter `TAB_K16` reaches nothing but `RDT TAB_K, 16` (R103): every other command, run with another value
of it, does the same. -/
def Obligations.TabK16IsSeenOnlyByItsOwnRead : Prop :=
  ∀ (i : Instr) (s : State) (v : Byte), i ≠ .rdt 6 16 →
    (∀ t, exec i s = .next t → exec i (withTabK16 s v) = .next (withTabK16 t v)) ∧
    (∀ f, exec i s = .fault f → exec i (withTabK16 s v) = .fault f)

/-! ### NOP, MULX, GFMUL -/

/-- NOP (R145): as a command, and as a word with any fields. -/
def Obligations.NopResult : Prop :=
  (∀ s : State, exec .nop s = .next (okEnd s 0x00000000)) ∧
  (∀ (s : State) (rest : List HostInput) (a b c : Byte), s.input = .cmd (packFields 0x00 c b a) :: rest →
    step s = .next (if a = 0 ∧ b = 0 ∧ c = 0 then okEnd { s with input := rest } 0
      else errEnd { s with input := rest } 2))

/-- MULX (R91) by the LFSR step of R90: as a command, and as a word with any fields. -/
def Obligations.MulxResult : Prop :=
  (∀ (s : State) (a : Byte),
    exec (.mulx a) s = .next (okEnd s (((a <<< 1) ^^^ (if a.getLsbD 7 then 0x1D else 0x00)).setWidth 32))) ∧
  (∀ (s : State) (rest : List HostInput) (a b c : Byte), s.input = .cmd (packFields 0x02 c b a) :: rest →
    step s = .next (if b = 0 ∧ c = 0
      then okEnd { s with input := rest } (((a <<< 1) ^^^ (if a.getLsbD 7 then 0x1D else 0x00)).setWidth 32)
      else errEnd { s with input := rest } 2))

/-- The LFSR step (R90): its formula; zero is fixed, a non-zero byte stays non-zero and returns after exactly 255 steps, and the step
is a bijection. -/
def Obligations.MulxHasOrder255 : Prop :=
  (∀ x : Byte, mulx x = (x <<< 1) ^^^ (if x.getLsbD 7 then 0x1D else 0x00)) ∧ mulx 0 = 0 ∧ Function.Bijective mulx ∧
  ∀ x : Byte, x ≠ 0 → mulx x ≠ 0 ∧ mulx^[255] x = x ∧ ∀ n, 0 < n → n < 255 → mulx^[n] x ≠ x

/-- GFMUL (R93): the XOR of `mulx` applied `n` times to `a`, over the bits `n` of `b` that are 1; as a command, and as a
word with any fields. -/
def Obligations.GfmulResult : Prop :=
  (∀ (s : State) (a b : Byte),
    exec (.gfmul a b) s = .next (okEnd s
      (((List.range 8).foldr (fun n p => (if b.getLsbD n then mulx^[n] a else 0x00) ^^^ p) 0x00).setWidth 32))) ∧
  (∀ (s : State) (rest : List HostInput) (a b c : Byte), s.input = .cmd (packFields 0x03 c b a) :: rest →
    step s = .next (if c = 0
      then okEnd { s with input := rest }
        (((List.range 8).foldr (fun n p => (if b.getLsbD n then mulx^[n] a else 0x00) ^^^ p) 0x00).setWidth 32)
      else errEnd { s with input := rest } 2))

/-- GFMUL is the product in GF(2)[x]/(x^8 + x^4 + x^3 + x^2 + 1) (R92, R93): the one byte whose polynomial is congruent
to the product of the operands' polynomials. -/
def Obligations.GfmulIsTheFieldProduct : Prop :=
  ∀ a b c : Byte, c = gfmul a b ↔ fieldPoly ∣ bytePoly c - bytePoly a * bytePoly b

/-- The laws (a) to (d) of R94, and that there are no zero divisors (R93). -/
def Obligations.GfmulLaws : Prop :=
  (∀ a b : Byte, gfmul a b = gfmul b a) ∧
  (∀ a : Byte, gfmul a 0x01 = a ∧ gfmul a 0x00 = 0x00 ∧ gfmul a 0x02 = mulx a) ∧
  (∀ a b c : Byte, gfmul a (b ^^^ c) = gfmul a b ^^^ gfmul a c) ∧
  (∀ a b c : Byte, gfmul (gfmul a b) c = gfmul a (gfmul b c)) ∧
  (∀ a b : Byte, a ≠ 0 → b ≠ 0 → gfmul a b ≠ 0)

/-- Multiplication through the tables (R94 (e)): `a * b = EXP[(LOG[a] + LOG[b]) mod 255]`. -/
def Obligations.GfmulByTheTables : Prop :=
  ∀ s : State, Inv s → s.tv = true → ∀ a b : Byte, a ≠ 0 → b ≠ 0 →
    ∃ la lb : Byte, Memory.read .log s.log a.toNat = some la ∧ Memory.read .log s.log b.toNat = some lb ∧
      Memory.read .exp s.exp ((la.toNat + lb.toNat) % 255) = some (gfmul a b)

/-! ### BLDTAB -/

/-- BLDTAB (R80): what it leaves in every cell of `EXP` and `LOG`, in `X`, `TV` and `RES`, and that it changes nothing
else; as a command, and as a word with any fields. -/
def Obligations.BldtabResult : Prop :=
  (∀ s : State, ∃ exp log, exec .bldtab s =
      .next { s with exp := exp, log := log, x := 0x02, res := 0x00000000, status := 0x01,
                     rsp := s.rsp ++ [⟨0, 0⟩] } ∧
    (∀ i, i < 256 → Memory.read .exp exp i = some (genPow i)) ∧
    (∀ e, 1 ≤ e → e ≤ 255 → Memory.read .log log (genPow e).toNat = some (BitVec.ofNat 8 e)) ∧
    Memory.read .log log 0 = Memory.read .log s.log 0) ∧
  (∀ (s : State) (rest : List HostInput) (a b c : Byte), s.input = .cmd (packFields 0x01 c b a) :: rest →
    step s = if a = 0 ∧ b = 0 ∧ c = 0 then exec .bldtab { s with input := rest }
      else .next (errEnd { s with input := rest } 2))

/-- The example of R80: the first nine powers and three logarithms. -/
def Obligations.BldtabExampleValues : Prop :=
  ∀ s : State, ∃ t, exec .bldtab s = .next t ∧
    (List.range 9).map (Memory.read .exp t.exp) =
      [some 0x01, some 0x02, some 0x04, some 0x08, some 0x10, some 0x20, some 0x40, some 0x80, some 0x1D] ∧
    Memory.read .log t.log 0x02 = some 1 ∧ Memory.read .log t.log 0x1D = some 8 ∧
    Memory.read .log t.log 0x01 = some 0xFF

/-- The inverse-pair laws (a) and (b) of R83, and where law (b) fails. -/
def Obligations.LogAndExpAreInverse : Prop :=
  ∀ s : State, ∃ t, exec .bldtab s = .next t ∧
    (∀ x : Byte, x ≠ 0 → ∃ e : Byte, e ≠ 0 ∧ Memory.read .log t.log x.toNat = some e ∧
      Memory.read .exp t.exp e.toNat = some x) ∧
    (∀ i : Byte, i ≠ 0 → ∃ x : Byte, x ≠ 0 ∧ Memory.read .exp t.exp i.toNat = some x ∧
      Memory.read .log t.log x.toNat = some i) ∧
    Memory.read .exp t.exp 0 = some 0x01 ∧ Memory.read .log t.log 0x01 = some 255

/-- A second BLDTAB changes nothing but what every command writes (R84). -/
def Obligations.BldtabRepeatsToTheSameState : Prop :=
  ∀ s : State, Inv s → ∃ t, exec .bldtab s = .next t ∧
    exec .bldtab t = .next { t with rsp := t.rsp ++ [⟨0, 0⟩] }

/-! ### CDIR, KAPPA, CDLOG -/

/-- CDIR (R100, R101): every entry of `CANDA`, the end values of `X`, `Z` and `RES`, and that it changes nothing else, for
any constants and with or without tables; as a command, and as a word with any fields. -/
def Obligations.CdirResult : Prop :=
  (∀ s : State,
    ∃ canda, exec .cdir s = .next (okEnd { s with canda := canda, x := 0x01, z := s.cfg.tabK[14] } 0) ∧
      DirectBuilt s.cfg canda) ∧
  (∀ (s : State) (rest : List HostInput) (a b c : Byte), s.input = .cmd (packFields 0x04 c b a) :: rest →
    step s = if a = 0 ∧ b = 0 ∧ c = 0 then exec .cdir { s with input := rest }
      else .next (errEnd { s with input := rest } 2))

/-- With the default constants CDIR rebuilds `REF`, and so `CANDA` is a bijection (R102). -/
def Obligations.CdirRebuildsRef : Prop :=
  ∀ s : State, defaultConstants s.cfg → ∃ t, exec .cdir s = .next t ∧
    (∀ i : Byte, t.permEntry .canda i = t.refEntry i) ∧ Function.Bijective (t.permEntry .canda)

/-- KAPPA (R111) by the map of R110: as a command, and as a word with any fields. -/
def Obligations.KappaResult : Prop :=
  (∀ (s : State) (v : Byte),
    exec (.kappa v) s = .next (okEnd s ((0xDC ^^^ (if v.getLsbD 0 then 0x12 else 0x00) ^^^
      (if v.getLsbD 1 then s.cfg.kbit1 else 0x00) ^^^ (if v.getLsbD 2 then s.cfg.kbit2 else 0x00) ^^^
      (if v.getLsbD 3 then s.cfg.kbit3 else 0x00)).setWidth 32))) ∧
  (∀ (s : State) (rest : List HostInput) (v b c : Byte), s.input = .cmd (packFields 0x06 c b v) :: rest →
    step s = if b = 0 ∧ c = 0 then exec (.kappa v) { s with input := rest }
      else .next (errEnd { s with input := rest } 2))

/-- kappa (R110): bits 7:4 are ignored, it is affine, the two values of the source hold for all constants, and with the
defaults it is injective on 0..15 and takes the sixteen printed values. -/
def Obligations.KappaIsAffine : Prop :=
  (∀ (c : Config) (v : Byte), kappa c v = kappa c (v &&& 0x0F)) ∧
  (∀ (c : Config) (a b : Byte), kappa c (a ^^^ b) = kappa c a ^^^ kappa c b ^^^ 0xDC) ∧
  (∀ c : Config, kappa c 0 = 0xDC ∧ kappa c 1 = 0xCE) ∧
  (∀ c : Config, defaultConstants c →
    (List.range 16).map (fun v => kappa c (BitVec.ofNat 8 v)) =
      [0xDC, 0xCE, 0xFA, 0xE8, 0xF8, 0xEA, 0xDE, 0xCC, 0xEC, 0xFE, 0xCA, 0xD8, 0xC8, 0xDA, 0xEE, 0xFC] ∧
    ∀ a b : Byte, a.toNat < 16 → b.toNat < 16 → kappa c a = kappa c b → a = b)

/-- CDLOG (R113): with built tables every entry of `CANDB` as computed from `LOG[k]`, `EXP`, `SIGMA` and kappa, nothing
else changed, for any constants; without tables `ERR_NOTAB` and no change; as a word with any fields. The quotient and
remainder of `j = LOG[k] - 1` by 17 are the row and column of `LOG[k] = 17 * row + col + 1`. -/
def Obligations.CdlogResult : Prop :=
  (∀ s : State, Inv s → s.tv = true →
    ∃ candb, exec .cdlog s = .next (okEnd { s with candb := candb } 0) ∧
      Memory.read .candb candb 0 = some 0xFC ∧
      ∀ k, 1 ≤ k → k ≤ 255 → ∃ (l : Byte) (row : Fin 15) (col : Fin 17),
        Memory.read .log s.log k = some l ∧ l.toNat = 17 * row.val + col.val + 1 ∧
        (col.val < 16 → ∃ e, Memory.read .exp s.exp (17 * (s.cfg.sigma[row]).toNat) = some e ∧
          Memory.read .candb candb k = some (kappa s.cfg (BitVec.ofNat 8 col.val) ^^^ e)) ∧
        (col.val = 16 → Memory.read .candb candb k = some (kappa s.cfg (BitVec.ofNat 8 row.val)))) ∧
  (∀ s : State, s.tv = false → exec .cdlog s = .next (errEnd s 5)) ∧
  (∀ (s : State) (rest : List HostInput) (a b c : Byte), s.input = .cmd (packFields 0x05 c b a) :: rest →
    step s = if a = 0 ∧ b = 0 ∧ c = 0 then exec .cdlog { s with input := rest }
      else .next (errEnd { s with input := rest } 2))

/-- The entries of `CANDB` by position in the exponent walk (R114, R116, R117): the row terms are powers of the
generator, the boundary entries are `kappa(row)`. -/
def Obligations.CdlogBuildsTheClosedForm : Prop :=
  ∀ s : State, Inv s → s.tv = true → ∃ t, exec .cdlog s = .next t ∧ DecomposedBuilt s.cfg t.candb

/-- With the default constants CDLOG rebuilds `REF`, and so `CANDB` is a bijection (R115). -/
def Obligations.CdlogRebuildsRef : Prop :=
  ∀ s : State, Inv s → s.tv = true → defaultConstants s.cfg → ∃ t, exec .cdlog s = .next t ∧
    (∀ i : Byte, t.permEntry .candb i = t.refEntry i) ∧ Function.Bijective (t.permEntry .candb)

/-- The boundary branch of CDLOG (R116): exactly 15 of the inputs 1..255 take it, the other 240 take the main branch.
The 15 are `EXP[17 * (row + 1)]`, one for each row, and CDLOG leaves `kappa(row)` there; the others are 16 for each row,
and CDLOG leaves `kappa(col) XOR EXP[17 * SIGMA[row]]` there. Which branch an input takes is read off the model's loop
body by whether the entry depends on `EXP` (`takesBoundary`, Safety.lean), not off the value it leaves. -/
def Obligations.BoundaryBranchTakenFifteenTimes : Prop :=
  ∀ s : State, Inv s → s.tv = true →
    {k : Nat | 1 ≤ k ∧ k ≤ 255 ∧ takesBoundary s k}.ncard = 15 ∧
    {k : Nat | 1 ≤ k ∧ k ≤ 255 ∧ ¬ takesBoundary s k}.ncard = 240 ∧
    ∃ t, exec .cdlog s = .next t ∧
      (∀ row : Fin 15,
        let k := (genPow (17 * (row.val + 1))).toNat
        takesBoundary s k ∧ Memory.read .candb t.candb k = some (kappa s.cfg (BitVec.ofNat 8 row.val))) ∧
      (∀ (row : Fin 15) (col : Fin 16),
        let k := (genPow (17 * row.val + col.val + 1)).toNat
        ¬ takesBoundary s k ∧ Memory.read .candb t.candb k =
          some (kappa s.cfg (BitVec.ofNat 8 col.val) ^^^ genPow (17 * (s.cfg.sigma[row]).toNat)))

/-- The two constructors build the same table whenever the constants are tied as R118 says: `TAB_K[j] = kappa(j)`,
`TAB_S[i] = EXP[17 * SIGMA[i]]`, `Z0 = kappa(14)`. -/
def Obligations.ConstructorsAgree : Prop :=
  ∀ s : State, Inv s → s.tv = true →
    (∀ j : Fin 16, s.cfg.tabK[j] = kappa s.cfg (BitVec.ofNat 8 j.val)) →
    (∀ i : Fin 15, s.cfg.tabS[i] = genPow (17 * (s.cfg.sigma[i]).toNat)) →
    kappa s.cfg 14 = 0xEE →
    ∃ t u, exec .cdir s = .next t ∧ exec .cdlog t = .next u ∧
      ∀ i : Byte, u.permEntry .canda i = u.permEntry .candb i

/-- The two constructors are independent: either order leads to the same state (R54). -/
def Obligations.ConstructorsCommute : Prop :=
  ∀ s : State, Inv s → s.tv = true →
    ∃ a b t, exec .cdir s = .next a ∧ exec .cdlog a = .next t ∧
      exec .cdlog s = .next b ∧ exec .cdir b = .next t

/-! ### CHECK -/

/-- CHECK (R125): a MISMATCH record for each index at which the table differs from `REF`, in index order, then the
SUMMARY; the count in `MISCNT` and `RES`; nothing else changes. Other selectors are refused; as a word with any
fields. -/
def Obligations.CheckResult : Prop :=
  (∀ (s : State) (c label : Byte) (t : PermSpace), (c, t) ∈ permSelectors →
    let bad := ((List.range 256).map (BitVec.ofNat 8)).filter (fun i => s.permEntry t i != s.refEntry i)
    let cnt : Word := BitVec.ofNat 32 bad.length
    exec (.check c label) s = .next (okEnd
      { s with
        diag := s.diag ++ bad.map (fun i => 0x01#8 ++ label ++ i ++ s.permEntry t i ++ (s.refEntry i).setWidth 32) ++
          [0x02#8 ++ label ++ 0x00#8 ++ 0x00#8 ++ cnt]
        miscnt := cnt } cnt)) ∧
  (∀ (s : State) (c label : Byte), 2 < c.toNat → exec (.check c label) s = .next (errEnd s 3)) ∧
  (∀ (s : State) (rest : List HostInput) (a b c : Byte), s.input = .cmd (packFields 0x07 c b a) :: rest →
    step s = if b = 0 then exec (.check c a) { s with input := rest }
      else .next (errEnd { s with input := rest } 2))

/-- A zero count means that the table is `REF` (R126), and then a bijection where `REF` is one; a mismatch is no error
(R127). -/
def Obligations.CheckCountIsZeroExactlyOnEquality : Prop :=
  ∀ (s : State) (c label : Byte) (t : PermSpace), (c, t) ∈ permSelectors →
    ∃ u, exec (.check c label) s = .next u ∧ u.err = 0 ∧ u.res.toNat ≤ 256 ∧
      (u.res = 0 ↔ ∀ i : Byte, s.permEntry t i = s.refEntry i) ∧
      (Function.Bijective s.refEntry → u.res = 0 → Function.Bijective (s.permEntry t))

/-! ### ROTD, ROTDX -/

/-- `rotl1` (R135): bit by bit, its two fixed points, its order, and where it differs from `mulx`. -/
def Obligations.RotlMovesEveryBitUp : Prop :=
  ∀ x : Byte,
    (∀ n, n < 7 → (rotl1 x).getLsbD (n + 1) = x.getLsbD n) ∧ (rotl1 x).getLsbD 0 = x.getLsbD 7 ∧
    (rotl1 x = x ↔ x = 0x00 ∨ x = 0xFF) ∧ rotl1^[8] x = x ∧ (rotl1 x ≠ mulx x ↔ x.getLsbD 7 = true)

/-- The rotational difference (R136) is zero at `0x00` and `0xFF` on every table, and nowhere else on a bijection. -/
def Obligations.RotdiffZeros : Prop :=
  ∀ (s : State) (t : PermSpace),
    (∀ x, rotdiff s t x = s.permEntry t (rotl1 x) ^^^ s.permEntry t x) ∧
    rotdiff s t 0x00 = 0x00 ∧ rotdiff s t 0xFF = 0x00 ∧
    (Function.Bijective (s.permEntry t) → ∀ x, rotdiff s t x = 0x00 → x = 0x00 ∨ x = 0xFF)

/-- ROTD (R137): 256 ROTDIFF records in the order of `x`; nothing else changes. Other selectors are refused; as a word
with any fields. -/
def Obligations.RotdResult : Prop :=
  (∀ (s : State) (c : Byte) (t : PermSpace), (c, t) ∈ permSelectors →
    exec (.rotd c) s = .next (okEnd
      { s with
        diag := s.diag ++ ((List.range 256).map (BitVec.ofNat 8)).map (fun x =>
          0x03#8 ++ 0x00#8 ++ x ++ 0x00#8 ++ (s.permEntry t (x.rotateLeft 1) ^^^ s.permEntry t x).setWidth 32) } 0)) ∧
  (∀ (s : State) (c : Byte), 2 < c.toNat → exec (.rotd c) s = .next (errEnd s 3)) ∧
  (∀ (s : State) (rest : List HostInput) (a b c : Byte), s.input = .cmd (packFields 0x08 c b a) :: rest →
    step s = if a = 0 ∧ b = 0 then exec (.rotd c) { s with input := rest }
      else .next (errEnd { s with input := rest } 2))

/-- ROTD is restartable: a second one appends the same 256 records again (R137 (c), R139). -/
def Obligations.RotdIsRestartable : Prop :=
  ∀ (s : State) (c : Byte) (t : PermSpace), (c, t) ∈ permSelectors →
    ∃ d u v, d.length = 256 ∧ exec (.rotd c) s = .next u ∧ u.diag = s.diag ++ d ∧
      exec (.rotd c) u = .next v ∧ v.diag = u.diag ++ d

/-- ROTDX (R138): as a command on each permutation space, and as a word with any fields. -/
def Obligations.RotdxResult : Prop :=
  (∀ (s : State) (c x : Byte) (t : PermSpace), (c, t) ∈ permSelectors →
    exec (.rotdx c x) s =
      .next (okEnd s ((s.permEntry t (x.rotateLeft 1) ^^^ s.permEntry t x).setWidth 32))) ∧
  (∀ (s : State) (rest : List HostInput) (x b c : Byte), s.input = .cmd (packFields 0x09 c b x) :: rest →
    step s = if b = 0 then exec (.rotdx c x) { s with input := rest }
      else .next (errEnd { s with input := rest } 2)) ∧
  (∀ (s : State) (c x : Byte), 2 < c.toNat → exec (.rotdx c x) s = .next (errEnd s 3))

/-- The value of `ROTDX t, x` is the `DATA` of the `x`-th record of a ROTD on the same table (R138). -/
def Obligations.RotdxIsAnElementOfRotd : Prop :=
  ∀ (s : State) (c x : Byte) (t : PermSpace), (c, t) ∈ permSelectors →
    ∃ u v r, exec (.rotdx c x) s = .next u ∧ exec (.rotd c) s = .next v ∧
      v.diag[s.diag.length + x.toNat]? = some r ∧ r.extractLsb' 0 32 = u.res

/-! ### RDT, RDR -/

/-- RDT (R146): each of the nine spaces gives the cell, zero-extended, and nothing else changes; the refusals, the first
that applies; as a word with any fields. -/
def Obligations.RdtResult : Prop :=
  (∀ (s : State) (a : Byte),
    exec (.rdt 0 a) s = .next (okEnd s ((s.refEntry a).setWidth 32)) ∧
    exec (.rdt 1 a) s = .next (okEnd s ((s.permEntry .canda a).setWidth 32)) ∧
    exec (.rdt 2 a) s = .next (okEnd s ((s.permEntry .candb a).setWidth 32)) ∧
    (∀ v : Byte, s.tv = true → a ≠ 0 → Memory.read .log s.log a.toNat = some v →
      exec (.rdt 3 a) s = .next (okEnd s (v.setWidth 32))) ∧
    (∀ v : Byte, s.tv = true → Memory.read .exp s.exp a.toNat = some v →
      exec (.rdt 4 a) s = .next (okEnd s (v.setWidth 32))) ∧
    (∀ h : a.toNat < 15, exec (.rdt 5 a) s = .next (okEnd s ((s.cfg.tabS[a.toNat]).setWidth 32))) ∧
    (∀ h : a.toNat < 16, exec (.rdt 6 a) s = .next (okEnd s ((s.cfg.tabK[a.toNat]).setWidth 32))) ∧
    exec (.rdt 6 16) s = .next (okEnd s (s.cfg.tabK16.setWidth 32)) ∧
    (∀ h : a.toNat < 15, exec (.rdt 7 a) s = .next (okEnd s ((s.cfg.sigma[a.toNat]).setWidth 32))) ∧
    exec (.rdt 8 0) s = .next (okEnd s 0x12) ∧
    exec (.rdt 8 1) s = .next (okEnd s (s.cfg.kbit1.setWidth 32)) ∧
    exec (.rdt 8 2) s = .next (okEnd s (s.cfg.kbit2.setWidth 32)) ∧
    exec (.rdt 8 3) s = .next (okEnd s (s.cfg.kbit3.setWidth 32))) ∧
  (∀ (s : State) (c a : Byte),
    (8 < c.toNat → exec (.rdt c a) s = .next (errEnd s 3)) ∧
    (((c = 5 ∨ c = 7) ∧ 15 ≤ a.toNat) ∨ (c = 6 ∧ 17 ≤ a.toNat) ∨ (c = 8 ∧ 4 ≤ a.toNat) →
      exec (.rdt c a) s = .next (errEnd s 4)) ∧
    ((c = 3 ∨ c = 4) → s.tv = false → exec (.rdt c a) s = .next (errEnd s 5)) ∧
    (s.tv = true → exec (.rdt 3 0) s = .next (errEnd s 6))) ∧
  (∀ (s : State) (rest : List HostInput) (a b c : Byte), s.input = .cmd (packFields 0x0A c b a) :: rest →
    step s = if b = 0 then exec (.rdt c a) { s with input := rest }
      else .next (errEnd { s with input := rest } 2))

/-- RDT of built tables reads what the walk wrote (R81, R82, R146): completion on every index that is a cell with a
value. -/
def Obligations.RdtReadsBuiltTables : Prop :=
  ∀ s : State, Inv s → s.tv = true →
    (∀ i : Byte, exec (.rdt 4 i) s = .next (okEnd s ((genPow i.toNat).setWidth 32))) ∧
    (∀ e : Byte, e ≠ 0 → exec (.rdt 3 (genPow e.toNat)) s = .next (okEnd s (e.setWidth 32)))

/-- RDR (R148): the five registers as they were before the command, other numbers refused; as a command, and as a word
with any fields. -/
def Obligations.RdrResult : Prop :=
  (∀ s : State,
    exec (.rdr 0) s = .next (okEnd s ((s.status &&& 0xF1).setWidth 32)) ∧
    exec (.rdr 1) s = .next (okEnd s s.res) ∧
    exec (.rdr 2) s = .next (okEnd s s.miscnt) ∧
    exec (.rdr 3) s = .next (okEnd s (s.x.setWidth 32)) ∧
    exec (.rdr 4) s = .next (okEnd s (s.z.setWidth 32)) ∧
    ∀ r : Byte, 4 < r.toNat → exec (.rdr r) s = .next (errEnd s 3)) ∧
  (∀ (s : State) (rest : List HostInput) (r b c : Byte), s.input = .cmd (packFields 0x0B c b r) :: rest →
    step s = if b = 0 ∧ c = 0 then exec (.rdr r) { s with input := rest }
      else .next (errEnd { s with input := rest } 2))

/-- An error code can be read once (R148 (a)): after a refusal with `code`, `RDR STATUS` gives it with `TV`, and a second
one gives `TV` alone. -/
def Obligations.ErrorCodeIsReadOnce : Prop :=
  ∀ (s : State) (code : Code), ∃ t u,
    exec (.rdr 0) (errEnd s code) = .next t ∧ t.res = (code ++ 0#3 ++ BitVec.ofBool s.tv).setWidth 32 ∧
    exec (.rdr 0) t = .next u ∧ u.res = (BitVec.ofBool s.tv).setWidth 32
end

