-- ==== Sys2Proof/Laws/Decode.lean ====
section
/-! SUPPORT. The fields of a packed command word, and the opcode map. -/

namespace Sys2Proof

variable (o c b a : Byte)

theorem fieldOpc_packFields : fieldOpc (packFields o c b a) = o := by
  apply BitVec.eq_of_getLsbD_eq
  intro i hi
  simp only [fieldOpc, packFields, BitVec.getLsbD_extractLsb', BitVec.getLsbD_append]
  simp only [hi, decide_true, Bool.true_and]
  rw [if_neg (by omega), if_neg (by omega), if_neg (by omega), show 24 + i - 8 - 8 - 8 = i by omega]

theorem fieldC_packFields : fieldC (packFields o c b a) = c := by
  apply BitVec.eq_of_getLsbD_eq
  intro i hi
  simp only [fieldC, packFields, BitVec.getLsbD_extractLsb', BitVec.getLsbD_append]
  simp only [hi, decide_true, Bool.true_and]
  rw [if_neg (by omega), if_neg (by omega), if_pos (by omega), show 16 + i - 8 - 8 = i by omega]

theorem fieldB_packFields : fieldB (packFields o c b a) = b := by
  apply BitVec.eq_of_getLsbD_eq
  intro i hi
  simp only [fieldB, packFields, BitVec.getLsbD_extractLsb', BitVec.getLsbD_append]
  simp [hi]

theorem fieldA_packFields : fieldA (packFields o c b a) = a := by
  apply BitVec.eq_of_getLsbD_eq
  intro i hi
  simp only [fieldA, packFields, BitVec.getLsbD_extractLsb', BitVec.getLsbD_append]
  simp [hi]

/-- A word is its four fields. -/
theorem packFields_fields (w : Word) : packFields (fieldOpc w) (fieldC w) (fieldB w) (fieldA w) = w := by
  apply BitVec.eq_of_getLsbD_eq
  intro i hi
  simp only [fieldOpc, fieldC, fieldB, fieldA, packFields, BitVec.getLsbD_extractLsb', BitVec.getLsbD_append]
  split
  · simp [*]
  · split
    · rename_i h1 h2; simp [h2, show 8 + (i - 8) = i by omega]
    · split
      · rename_i h1 h2 h3; simp [h3, show 16 + (i - 8 - 8) = i by omega]
      · simp [show i - 8 - 8 - 8 < 8 by omega, show 24 + (i - 8 - 8 - 8) = i by omega]

/-- Masking a packed word masks each field. -/
theorem packFields_and (o' c' b' a' : Byte) :
    packFields o c b a &&& packFields o' c' b' a' = packFields (o &&& o') (c &&& c') (b &&& b') (a &&& a') := by
  apply BitVec.eq_of_getLsbD_eq
  intro i hi
  simp only [packFields, BitVec.getLsbD_and, BitVec.getLsbD_append]
  split_ifs <;> rfl

/-- The must-be-zero masks of R61, field by field. -/
theorem mbz_packFields (f : Format) :
    f.mbz = match f with
      | .n => packFields 0 0xFF 0xFF 0xFF
      | .a => packFields 0 0xFF 0xFF 0
      | .ab => packFields 0 0xFF 0 0
      | .c => packFields 0 0 0xFF 0xFF
      | .ac => packFields 0 0 0xFF 0 := by
  cases f <;> rfl

/-- The opcode bytes, back. -/
theorem ofByte_opcode :
    Opcode.ofByte 0x00 = some .nop ∧ Opcode.ofByte 0x01 = some .bldtab ∧ Opcode.ofByte 0x02 = some .mulx ∧
    Opcode.ofByte 0x03 = some .gfmul ∧ Opcode.ofByte 0x04 = some .cdir ∧ Opcode.ofByte 0x05 = some .cdlog ∧
    Opcode.ofByte 0x06 = some .kappa ∧ Opcode.ofByte 0x07 = some .check ∧ Opcode.ofByte 0x08 = some .rotd ∧
    Opcode.ofByte 0x09 = some .rotdx ∧ Opcode.ofByte 0x0A = some .rdt ∧ Opcode.ofByte 0x0B = some .rdr := by
  decide

end Sys2Proof
end

