-- ==== Sys2Proof/Laws/Memory.lean ====
section
/-! SUPPORT. The laws of one mutable table: read after write, the canonical form kept, and equal tables from equal
reads. -/

namespace Sys2Proof.Machine

variable {sp : Space} {m : Memory} {a b : Nat} {v w : Byte}

/-! ### What a cell reads after an operation -/

@[simp] theorem find_nil : Memory.find [] a = none := rfl

theorem find_put_self : (m.put a v).find a = some v := by
  induction m with
  | nil => simp [Memory.put, Memory.find]
  | cons p r ih =>
    obtain ⟨k, u⟩ := p
    simp only [Memory.put]
    split
    · simp [Memory.find]
    · split
      · simp [Memory.find]
      · rename_i h1 h2
        simp [Memory.find, ih, show k ≠ a from fun h => h2 h.symm]

theorem find_put_ne (h : b ≠ a) : (m.put a v).find b = m.find b := by
  induction m with
  | nil => simp [Memory.put, Memory.find, h.symm]
  | cons p r ih =>
    obtain ⟨k, u⟩ := p
    simp only [Memory.put]
    split
    · simp [Memory.find, h.symm]
    · split
      · rename_i _ h2; subst h2; simp [Memory.find, h.symm]
      · simp [Memory.find, ih]

theorem find_drop_self : (m.drop a).find a = none := by
  induction m with
  | nil => rfl
  | cons p r ih =>
    obtain ⟨k, u⟩ := p
    simp only [Memory.drop]
    split
    · exact ih
    · rename_i h; simp [Memory.find, h, ih]

theorem find_drop_ne (h : b ≠ a) : (m.drop a).find b = m.find b := by
  induction m with
  | nil => rfl
  | cons p r ih =>
    obtain ⟨k, u⟩ := p
    simp only [Memory.drop]
    split
    · rename_i hk; subst hk; simp [Memory.find, h.symm, ih]
    · simp [Memory.find, ih]

@[simp] theorem read_nil : Memory.read sp [] a = unlisted sp := rfl

/-- A read after a write to the same cell gives the value written (R49). -/
theorem read_write_self : Memory.read sp (Memory.write sp m a v) a = some v := by
  unfold Memory.write
  split
  · rename_i h; simp [Memory.read, find_drop_self, h]
  · simp [Memory.read, find_put_self]

/-- A write leaves every other cell alone. -/
theorem read_write_ne (h : b ≠ a) : Memory.read sp (Memory.write sp m a v) b = Memory.read sp m b := by
  unfold Memory.write
  split <;> simp [Memory.read, find_drop_ne h, find_put_ne h]

theorem read_write : Memory.read sp (Memory.write sp m a v) b = if b = a then some v else Memory.read sp m b := by
  split
  · rename_i h; subst h; exact read_write_self
  · rename_i h; exact read_write_ne h

/-- After writes of `v` to the cells `l`, those cells read `v` and the others as before. -/
theorem read_foldl_write (l : List Nat) (m : Memory) :
    Memory.read sp (l.foldl (fun m n => Memory.write sp m n v) m) b =
      if b ∈ l then some v else Memory.read sp m b := by
  induction l generalizing m with
  | nil => simp
  | cons n r ih =>
    rw [List.foldl_cons, ih, read_write]
    by_cases h1 : b ∈ r <;> by_cases h2 : b = n <;> simp [h1, h2]

/-- The fill a constructor starts with: every cell of the table reads `v`. -/
theorem read_fill : Memory.read sp (Memory.fill sp m v) b = if b < N then some v else Memory.read sp m b := by
  simp [Memory.fill, read_foldl_write]

/-! ### The canonical form -/

theorem mem_put {p : Host.Cell} (h : p ∈ m.put a v) : p = (a, v) ∨ p ∈ m := by
  induction m with
  | nil => simpa [Memory.put] using h
  | cons q r ih =>
    obtain ⟨k, u⟩ := q
    simp only [Memory.put] at h
    split at h
    · simpa using h
    · split at h
      · rcases List.mem_cons.1 h with h | h
        · exact .inl h
        · exact .inr (List.mem_cons_of_mem _ h)
      · rcases List.mem_cons.1 h with h | h
        · exact .inr (h ▸ List.mem_cons_self)
        · exact (ih h).imp_right (List.mem_cons_of_mem _)

theorem mem_drop {p : Host.Cell} (h : p ∈ m.drop a) : p ∈ m := by
  induction m with
  | nil => exact h
  | cons q r ih =>
    obtain ⟨k, u⟩ := q
    simp only [Memory.drop] at h
    split at h
    · exact List.mem_cons_of_mem _ (ih h)
    · rcases List.mem_cons.1 h with h | h
      · exact h ▸ List.mem_cons_self
      · exact List.mem_cons_of_mem _ (ih h)

theorem rising_put (h : m.Pairwise (fun p q => p.1 < q.1)) : (m.put a v).Pairwise (fun p q => p.1 < q.1) := by
  induction m with
  | nil => simp [Memory.put]
  | cons q r ih =>
    obtain ⟨k, u⟩ := q
    obtain ⟨hk, hr⟩ := List.pairwise_cons.1 h
    simp only [Memory.put]
    split
    · rename_i hlt
      refine List.pairwise_cons.2 ⟨fun p hp => ?_, h⟩
      rcases List.mem_cons.1 hp with hp | hp
      · subst hp; exact hlt
      · exact lt_trans hlt (hk p hp)
    · split
      · rename_i _ heq; subst heq; exact List.pairwise_cons.2 ⟨hk, hr⟩
      · rename_i h1 h2
        refine List.pairwise_cons.2 ⟨fun p hp => ?_, ih hr⟩
        rcases mem_put hp with hp | hp
        · subst hp; show k < a; omega
        · exact hk p hp

theorem rising_drop (h : m.Pairwise (fun p q => p.1 < q.1)) : (m.drop a).Pairwise (fun p q => p.1 < q.1) := by
  induction m with
  | nil => exact h
  | cons q r ih =>
    obtain ⟨k, u⟩ := q
    obtain ⟨hk, hr⟩ := List.pairwise_cons.1 h
    simp only [Memory.drop]
    split
    · exact ih hr
    · exact List.pairwise_cons.2 ⟨fun p hp => hk p (mem_drop hp), ih hr⟩

theorem wf_nil : Memory.wf sp [] := by simp [Memory.wf]

/-- Every write inside the table keeps the canonical form. -/
theorem wf_write (ha : a < N) (h : Memory.wf sp m) : Memory.wf sp (Memory.write sp m a v) := by
  unfold Memory.write
  split
  · exact ⟨rising_drop h.1, fun p hp => h.2 p (mem_drop hp)⟩
  · rename_i hv
    refine ⟨rising_put h.1, fun p hp => ?_⟩
    rcases mem_put hp with hp | hp
    · subst hp; exact ⟨ha, hv⟩
    · exact h.2 p hp

theorem wf_foldl_write (l : List Nat) (hl : ∀ n ∈ l, n < N) (m : Memory) (h : Memory.wf sp m) :
    Memory.wf sp (l.foldl (fun m n => Memory.write sp m n v) m) := by
  induction l generalizing m with
  | nil => exact h
  | cons n r ih =>
    exact ih (fun k hk => hl k (List.mem_cons_of_mem _ hk)) _ (wf_write (hl n List.mem_cons_self) h)

/-- The fill keeps the canonical form. -/
theorem wf_fill (h : Memory.wf sp m) : Memory.wf sp (Memory.fill sp m v) :=
  wf_foldl_write _ (fun _ hn => List.mem_range.1 hn) _ h

/-! ### Equal tables are equal data -/

theorem find_eq_none_of_lt (h : ∀ p ∈ m, a < p.1) : m.find a = none := by
  induction m with
  | nil => rfl
  | cons q r ih =>
    obtain ⟨k, u⟩ := q
    have hk : a < k := h (k, u) List.mem_cons_self
    simp [Memory.find, show k ≠ a by omega, ih fun p hp => h p (List.mem_cons_of_mem _ hp)]

theorem find_mem (h : m.find a = some v) : (a, v) ∈ m := by
  induction m with
  | nil => simp at h
  | cons q r ih =>
    obtain ⟨k, u⟩ := q
    simp only [Memory.find] at h
    split at h
    · rename_i hk; cases h; subst hk; exact List.mem_cons_self
    · exact List.mem_cons_of_mem _ (ih h)

/-- Rising lists with the same listed values are the same list. -/
theorem eq_of_find_eq {m₁ m₂ : Memory} (h₁ : m₁.Pairwise (fun p q => p.1 < q.1))
    (h₂ : m₂.Pairwise (fun p q => p.1 < q.1)) (h : ∀ a, m₁.find a = m₂.find a) : m₁ = m₂ := by
  induction m₁ generalizing m₂ with
  | nil =>
    cases m₂ with
    | nil => rfl
    | cons q r => have := h q.1; simp [Memory.find] at this
  | cons p r ih =>
    cases m₂ with
    | nil => have := h p.1; simp [Memory.find] at this
    | cons q r' =>
      obtain ⟨hp, hr⟩ := List.pairwise_cons.1 h₁
      obtain ⟨hq, hr'⟩ := List.pairwise_cons.1 h₂
      have hpq : p.1 = q.1 := by
        rcases lt_trichotomy p.1 q.1 with hlt | heq | hgt
        · have h0 := h p.1
          rw [find_eq_none_of_lt (m := q :: r') (a := p.1)] at h0
          · simp [Memory.find] at h0
          · intro x hx
            rcases List.mem_cons.1 hx with hx | hx
            · subst hx; exact hlt
            · exact lt_trans hlt (hq x hx)
        · exact heq
        · have h0 := h q.1
          rw [find_eq_none_of_lt (m := p :: r) (a := q.1)] at h0
          · simp [Memory.find] at h0
          · intro x hx
            rcases List.mem_cons.1 hx with hx | hx
            · subst hx; exact hgt
            · exact lt_trans hgt (hp x hx)
      have hv : p.2 = q.2 := by
        have := h p.1
        simpa [Memory.find, hpq] using this
      have htail : r = r' := by
        refine ih hr hr' fun a => ?_
        by_cases ha : a = p.1
        · subst ha
          rw [find_eq_none_of_lt hp, find_eq_none_of_lt]
          intro x hx; rw [hpq]; exact hq x hx
        · have := h a
          simpa [Memory.find, Ne.symm ha, show q.1 ≠ a from fun h' => ha (hpq.trans h').symm] using this
      rw [htail, Prod.ext hpq hv]

theorem find_eq_of_read_eq {m₁ m₂ : Memory} (h₁ : Memory.wf sp m₁) (h₂ : Memory.wf sp m₂)
    (h : Memory.read sp m₁ a = Memory.read sp m₂ a) : m₁.find a = m₂.find a := by
  unfold Memory.read at h
  cases e1 : m₁.find a <;> cases e2 : m₂.find a <;> simp only [e1, e2] at h ⊢
  · exact absurd h (h₂.2 _ (find_mem e2)).2
  · exact absurd h.symm (h₁.2 _ (find_mem e1)).2
  · exact h

/-- Two tables in canonical form whose cells read the same are equal. -/
theorem eq_of_read_eq {m₁ m₂ : Memory} (h₁ : Memory.wf sp m₁) (h₂ : Memory.wf sp m₂)
    (h : ∀ a, a < N → Memory.read sp m₁ a = Memory.read sp m₂ a) : m₁ = m₂ := by
  refine eq_of_find_eq h₁.1 h₂.1 fun a => ?_
  by_cases ha : a < N
  · exact find_eq_of_read_eq h₁ h₂ (h a ha)
  · have none_of : ∀ m : Memory, Memory.wf sp m → m.find a = none := fun m hm => by
      cases e : m.find a with
      | none => rfl
      | some v => exact absurd (hm.2 _ (find_mem e)).1 ha
    rw [none_of m₁ h₁, none_of m₂ h₂]

end Sys2Proof.Machine
end

