-- ==== Sys2Proof/Laws/Operands.lean ====
section
/-! SUPPORT. The selectors and register numbers: which bytes are legal, and the lengths of the spaces. -/

namespace Sys2Proof.Machine

theorem permSpaceOf_isSome : ∀ c : Byte, (permSpaceOf c).isSome = decide (c.toNat ≤ 2) := by decide +kernel

theorem spaceOf_isSome : ∀ c : Byte, (spaceOf c).isSome = decide (c.toNat ≤ 8) := by decide +kernel

theorem regOf_isSome : ∀ r : Byte, (regOf r).isSome = decide (r.toNat ≤ 4) := by decide +kernel

/-- The machine's lengths are those of the table of R40. -/
theorem spaceLen_spaceOf : ∀ c : Byte, ((spaceOf c).map spaceLen).getD 0 = cellsOfSpace c := by decide +kernel

/-- `LOG` and `EXP` are the spaces 3 and 4. -/
theorem spaceNeedsTables_spaceOf :
    ∀ c : Byte, ((spaceOf c).map spaceNeedsTables).getD false = decide (c.toNat = 3 ∨ c.toNat = 4) := by
  decide +kernel

theorem spaceOf_eq_log : ∀ c : Byte, spaceOf c = some .log ↔ c = 3 := by decide +kernel

end Sys2Proof.Machine
end

