-- ==== Sys2Proof/Laws/State.lean ====
section
/-! SUPPORT. One lemma per field of the state for each of its named updates. -/

namespace Sys2Proof.Machine

variable (s : State) (c : Code) (r : Word) (e : Err)

@[simp] theorem finish_cfg : (s.finish c r).cfg = s.cfg := rfl
@[simp] theorem finish_log : (s.finish c r).log = s.log := rfl
@[simp] theorem finish_exp : (s.finish c r).exp = s.exp := rfl
@[simp] theorem finish_canda : (s.finish c r).canda = s.canda := rfl
@[simp] theorem finish_candb : (s.finish c r).candb = s.candb := rfl
@[simp] theorem finish_x : (s.finish c r).x = s.x := rfl
@[simp] theorem finish_z : (s.finish c r).z = s.z := rfl
@[simp] theorem finish_res : (s.finish c r).res = r := rfl
@[simp] theorem finish_miscnt : (s.finish c r).miscnt = s.miscnt := rfl
@[simp] theorem finish_status : (s.finish c r).status = packStatus c s.tv := rfl
@[simp] theorem finish_diag : (s.finish c r).diag = s.diag := rfl
@[simp] theorem finish_rsp : (s.finish c r).rsp = s.rsp ++ [⟨c, r⟩] := rfl
@[simp] theorem finish_input : (s.finish c r).input = s.input := rfl

@[simp] theorem complete_cfg : (s.complete r).cfg = s.cfg := rfl
@[simp] theorem complete_log : (s.complete r).log = s.log := rfl
@[simp] theorem complete_exp : (s.complete r).exp = s.exp := rfl
@[simp] theorem complete_canda : (s.complete r).canda = s.canda := rfl
@[simp] theorem complete_candb : (s.complete r).candb = s.candb := rfl
@[simp] theorem complete_x : (s.complete r).x = s.x := rfl
@[simp] theorem complete_z : (s.complete r).z = s.z := rfl
@[simp] theorem complete_res : (s.complete r).res = r := rfl
@[simp] theorem complete_miscnt : (s.complete r).miscnt = s.miscnt := rfl
@[simp] theorem complete_status : (s.complete r).status = packStatus okCode s.tv := rfl
@[simp] theorem complete_diag : (s.complete r).diag = s.diag := rfl
@[simp] theorem complete_rsp : (s.complete r).rsp = s.rsp ++ [⟨okCode, r⟩] := rfl
@[simp] theorem complete_input : (s.complete r).input = s.input := rfl

@[simp] theorem refuse_cfg : (s.refuse e).cfg = s.cfg := rfl
@[simp] theorem refuse_log : (s.refuse e).log = s.log := rfl
@[simp] theorem refuse_exp : (s.refuse e).exp = s.exp := rfl
@[simp] theorem refuse_canda : (s.refuse e).canda = s.canda := rfl
@[simp] theorem refuse_candb : (s.refuse e).candb = s.candb := rfl
@[simp] theorem refuse_x : (s.refuse e).x = s.x := rfl
@[simp] theorem refuse_z : (s.refuse e).z = s.z := rfl
@[simp] theorem refuse_res : (s.refuse e).res = 0 := rfl
@[simp] theorem refuse_miscnt : (s.refuse e).miscnt = s.miscnt := rfl
@[simp] theorem refuse_status : (s.refuse e).status = packStatus (errCode e) s.tv := rfl
@[simp] theorem refuse_diag : (s.refuse e).diag = s.diag := rfl
@[simp] theorem refuse_rsp : (s.refuse e).rsp = s.rsp ++ [⟨errCode e, 0⟩] := rfl
@[simp] theorem refuse_input : (s.refuse e).input = s.input := rfl

@[simp] theorem setTv_cfg : (s.setTv).cfg = s.cfg := rfl
@[simp] theorem setTv_log : (s.setTv).log = s.log := rfl
@[simp] theorem setTv_exp : (s.setTv).exp = s.exp := rfl
@[simp] theorem setTv_canda : (s.setTv).canda = s.canda := rfl
@[simp] theorem setTv_candb : (s.setTv).candb = s.candb := rfl
@[simp] theorem setTv_x : (s.setTv).x = s.x := rfl
@[simp] theorem setTv_z : (s.setTv).z = s.z := rfl
@[simp] theorem setTv_res : (s.setTv).res = s.res := rfl
@[simp] theorem setTv_miscnt : (s.setTv).miscnt = s.miscnt := rfl
@[simp] theorem setTv_status : (s.setTv).status = packStatus s.err true := rfl
@[simp] theorem setTv_diag : (s.setTv).diag = s.diag := rfl
@[simp] theorem setTv_rsp : (s.setTv).rsp = s.rsp := rfl
@[simp] theorem setTv_input : (s.setTv).input = s.input := rfl

@[simp] theorem putWalk_cfg (w : LfsrWalk) : (s.putWalk w).cfg = s.cfg := rfl
@[simp] theorem putWalk_log (w : LfsrWalk) : (s.putWalk w).log = w.log := rfl
@[simp] theorem putWalk_exp (w : LfsrWalk) : (s.putWalk w).exp = w.exp := rfl
@[simp] theorem putWalk_canda (w : LfsrWalk) : (s.putWalk w).canda = s.canda := rfl
@[simp] theorem putWalk_candb (w : LfsrWalk) : (s.putWalk w).candb = s.candb := rfl
@[simp] theorem putWalk_x (w : LfsrWalk) : (s.putWalk w).x = w.x := rfl
@[simp] theorem putWalk_z (w : LfsrWalk) : (s.putWalk w).z = s.z := rfl
@[simp] theorem putWalk_res (w : LfsrWalk) : (s.putWalk w).res = s.res := rfl
@[simp] theorem putWalk_miscnt (w : LfsrWalk) : (s.putWalk w).miscnt = s.miscnt := rfl
@[simp] theorem putWalk_status (w : LfsrWalk) : (s.putWalk w).status = s.status := rfl
@[simp] theorem putWalk_diag (w : LfsrWalk) : (s.putWalk w).diag = s.diag := rfl
@[simp] theorem putWalk_rsp (w : LfsrWalk) : (s.putWalk w).rsp = s.rsp := rfl
@[simp] theorem putWalk_input (w : LfsrWalk) : (s.putWalk w).input = s.input := rfl

@[simp] theorem putDirect_cfg (w : DirectWalk) : (s.putDirect w).cfg = s.cfg := rfl
@[simp] theorem putDirect_log (w : DirectWalk) : (s.putDirect w).log = s.log := rfl
@[simp] theorem putDirect_exp (w : DirectWalk) : (s.putDirect w).exp = s.exp := rfl
@[simp] theorem putDirect_canda (w : DirectWalk) : (s.putDirect w).canda = w.canda := rfl
@[simp] theorem putDirect_candb (w : DirectWalk) : (s.putDirect w).candb = s.candb := rfl
@[simp] theorem putDirect_x (w : DirectWalk) : (s.putDirect w).x = w.x := rfl
@[simp] theorem putDirect_z (w : DirectWalk) : (s.putDirect w).z = w.z := rfl
@[simp] theorem putDirect_res (w : DirectWalk) : (s.putDirect w).res = s.res := rfl
@[simp] theorem putDirect_miscnt (w : DirectWalk) : (s.putDirect w).miscnt = s.miscnt := rfl
@[simp] theorem putDirect_status (w : DirectWalk) : (s.putDirect w).status = s.status := rfl
@[simp] theorem putDirect_diag (w : DirectWalk) : (s.putDirect w).diag = s.diag := rfl
@[simp] theorem putDirect_rsp (w : DirectWalk) : (s.putDirect w).rsp = s.rsp := rfl
@[simp] theorem putDirect_input (w : DirectWalk) : (s.putDirect w).input = s.input := rfl

@[simp] theorem putCheck_cfg (l : Byte) (w : CheckRun) : (s.putCheck l w).cfg = s.cfg := rfl
@[simp] theorem putCheck_log (l : Byte) (w : CheckRun) : (s.putCheck l w).log = s.log := rfl
@[simp] theorem putCheck_exp (l : Byte) (w : CheckRun) : (s.putCheck l w).exp = s.exp := rfl
@[simp] theorem putCheck_canda (l : Byte) (w : CheckRun) : (s.putCheck l w).canda = s.canda := rfl
@[simp] theorem putCheck_candb (l : Byte) (w : CheckRun) : (s.putCheck l w).candb = s.candb := rfl
@[simp] theorem putCheck_x (l : Byte) (w : CheckRun) : (s.putCheck l w).x = s.x := rfl
@[simp] theorem putCheck_z (l : Byte) (w : CheckRun) : (s.putCheck l w).z = s.z := rfl
@[simp] theorem putCheck_res (l : Byte) (w : CheckRun) : (s.putCheck l w).res = s.res := rfl
@[simp] theorem putCheck_miscnt (l : Byte) (w : CheckRun) : (s.putCheck l w).miscnt = w.cnt := rfl
@[simp] theorem putCheck_status (l : Byte) (w : CheckRun) : (s.putCheck l w).status = s.status := rfl
@[simp] theorem putCheck_diag (l : Byte) (w : CheckRun) : (s.putCheck l w).diag = w.diag ++ [summaryRecord l w.cnt] := rfl
@[simp] theorem putCheck_rsp (l : Byte) (w : CheckRun) : (s.putCheck l w).rsp = s.rsp := rfl
@[simp] theorem putCheck_input (l : Byte) (w : CheckRun) : (s.putCheck l w).input = s.input := rfl

/-! `STATUS` (R26): its two fields read back, and its hardwired bits. -/

theorem packStatus_tv (c : Code) (b : Bool) : (packStatus c b).getLsbD 0 = b := by
  revert c b; decide

theorem packStatus_err (c : Code) (b : Bool) : (packStatus c b).extractLsb' 4 4 = c := by
  revert c b; decide

theorem packStatus_reserved (c : Code) (b : Bool) : (packStatus c b).extractLsb' 1 3 = 0 := by
  revert c b; decide

@[simp] theorem finish_tv : (s.finish c r).tv = s.tv := packStatus_tv _ _
@[simp] theorem finish_err : (s.finish c r).err = c := packStatus_err _ _
@[simp] theorem complete_tv : (s.complete r).tv = s.tv := packStatus_tv _ _
@[simp] theorem complete_err : (s.complete r).err = okCode := packStatus_err _ _
@[simp] theorem refuse_tv : (s.refuse e).tv = s.tv := packStatus_tv _ _
@[simp] theorem refuse_err : (s.refuse e).err = errCode e := packStatus_err _ _
@[simp] theorem setTv_tv : s.setTv.tv = true := packStatus_tv _ _
@[simp] theorem setTv_err : s.setTv.err = s.err := packStatus_err _ _
@[simp] theorem putWalk_tv (w : LfsrWalk) : (s.putWalk w).tv = s.tv := rfl
@[simp] theorem putDirect_tv (w : DirectWalk) : (s.putDirect w).tv = s.tv := rfl
@[simp] theorem putCheck_tv (l : Byte) (w : CheckRun) : (s.putCheck l w).tv = s.tv := rfl

/-- The codes of R160 are 1 to 6, never that of a completed command. -/
theorem errCode_ne_ok : errCode e ≠ okCode := by cases e <;> decide

theorem errCode_le : (errCode e).toNat ≤ 6 := by cases e <;> decide

/-- A completed command is refused with no code: the two ends differ. -/
theorem complete_ne_refuse (t : State) : s.complete r ≠ t.refuse e := by
  intro h
  have := congrArg State.err h
  simp only [complete_err, refuse_err] at this
  exact errCode_ne_ok e this.symm

end Sys2Proof.Machine
end

