-- ==== Sys2Proof/Laws/Exec.lean ====
section
/-! SUPPORT. What a command can do, said once: the records it emits, the two ways it ends, and what each leaves alone. -/

namespace Sys2Proof.Machine

/-! ### Records -/

theorem recordKind_diagRecord (k l i c : Byte) (d : Word) : recordKind (diagRecord k l i c d) = k := by
  apply BitVec.eq_of_getLsbD_eq
  intro n hn
  simp only [recordKind, diagRecord, BitVec.getLsbD_extractLsb', BitVec.getLsbD_append]
  simp only [hn, decide_true, Bool.true_and]
  rw [if_neg (by omega), if_neg (by omega), if_neg (by omega), if_neg (by omega),
    show 56 + n - 32 - 8 - 8 - 8 = n by omega]

/-- The kinds of R27. -/
def LegalKind (r : DiagRecord) : Prop := recordKind r = 0x01 ∨ recordKind r = 0x02 ∨ recordKind r = 0x03

theorem legalKind_mismatch (l i c r : Byte) : LegalKind (mismatchRecord l i c r) :=
  .inl (recordKind_diagRecord _ _ _ _ _)

theorem legalKind_summary (l : Byte) (n : Word) : LegalKind (summaryRecord l n) :=
  .inr (.inl (recordKind_diagRecord _ _ _ _ _))

theorem legalKind_rotdiff (x d : Byte) : LegalKind (rotdiffRecord x d) :=
  .inr (.inr (recordKind_diagRecord _ _ _ _ _))

/-- `d'` is `d` with records of legal kinds appended. -/
def Appends (d d' : List DiagRecord) : Prop := ∃ e, d' = d ++ e ∧ ∀ r ∈ e, LegalKind r

theorem Appends.rfl' (d : List DiagRecord) : Appends d d := ⟨[], by simp, by simp⟩

theorem Appends.snoc {d d' : List DiagRecord} {r : DiagRecord} (h : Appends d d') (hr : LegalKind r) :
    Appends d (d' ++ [r]) := by
  obtain ⟨e, rfl, he⟩ := h
  refine ⟨e ++ [r], by simp, fun q hq => ?_⟩
  rcases List.mem_append.1 hq with hq | hq
  · exact he q hq
  · rw [List.mem_singleton.1 hq]; exact hr

theorem appends_checkSteps (s : State) (t : PermSpace) (label : Byte) (d : List DiagRecord) (l : List Nat)
    (r : CheckRun) (h : Appends d r.diag) : Appends d (l.foldl (checkStep s t label) r).diag := by
  induction l generalizing r with
  | nil => exact h
  | cons n l ih =>
    refine ih _ ?_
    simp only [checkStep]
    split
    · exact h
    · exact h.snoc (legalKind_mismatch _ _ _ _)

theorem appends_checkLoop (s : State) (t : PermSpace) (label : Byte) :
    Appends s.diag (checkLoop s t label).diag :=
  appends_checkSteps _ _ _ _ _ _ (.rfl' _)

theorem appends_rotdSteps (s : State) (t : PermSpace) (d d' : List DiagRecord) (l : List Nat) (h : Appends d d') :
    Appends d (l.foldl (fun d n => d ++ [rotdiffRecord (BitVec.ofNat 8 n) (rotdiff s t (BitVec.ofNat 8 n))]) d') := by
  induction l generalizing d' with
  | nil => exact h
  | cons n l ih => exact ih _ (h.snoc (legalKind_rotdiff _ _))

/-! ### The two ways a command ends -/

/-- The command's writers column of R12, read as a frame: what `i` may change on its way from `s` to `u`, before the
end that every command has. -/
structure Touches (i : Instr) (s u : State) : Prop where
  cfg : u.cfg = s.cfg
  input : u.input = s.input
  rsp : u.rsp = s.rsp
  res : u.res = s.res
  tables : i ≠ .bldtab → u.log = s.log ∧ u.exp = s.exp ∧ u.status = s.status
  x : i ≠ .bldtab → i ≠ .cdir → u.x = s.x
  z : i ≠ .cdir → u.z = s.z
  canda : i ≠ .cdir → u.canda = s.canda
  candb : i ≠ .cdlog → u.candb = s.candb
  miscnt : (∀ c l, i ≠ .check c l) → u.miscnt = s.miscnt
  diag : Appends s.diag u.diag
  noDiag : (∀ c l, i ≠ .check c l) → (∀ c, i ≠ .rotd c) → u.diag = s.diag
  tv : s.tv = true → u.tv = true

theorem Touches.none (i : Instr) (s : State) : Touches i s s := by
  constructor <;> intros <;> first | rfl | exact .rfl' _ | exact ⟨rfl, rfl, rfl⟩ | assumption

theorem touches_bldtab (s : State) (w : LfsrWalk) : Touches .bldtab s (s.putWalk w).setTv where
  cfg := rfl
  input := rfl
  rsp := rfl
  res := rfl
  tables h := absurd rfl h
  x h := absurd rfl h
  z _ := rfl
  canda _ := rfl
  candb _ := rfl
  miscnt _ := rfl
  diag := .rfl' _
  noDiag _ _ := rfl
  tv _ := setTv_tv _

theorem touches_cdir (s : State) (w : DirectWalk) : Touches .cdir s (s.putDirect w) where
  cfg := rfl
  input := rfl
  rsp := rfl
  res := rfl
  tables _ := ⟨rfl, rfl, rfl⟩
  x _ h := absurd rfl h
  z h := absurd rfl h
  canda h := absurd rfl h
  candb _ := rfl
  miscnt _ := rfl
  diag := .rfl' _
  noDiag _ _ := rfl
  tv h := h

theorem touches_cdlog (s : State) (m : Memory) : Touches .cdlog s { s with candb := m } where
  cfg := rfl
  input := rfl
  rsp := rfl
  res := rfl
  tables _ := ⟨rfl, rfl, rfl⟩
  x _ _ := rfl
  z _ := rfl
  canda _ := rfl
  candb h := absurd rfl h
  miscnt _ := rfl
  diag := .rfl' _
  noDiag _ _ := rfl
  tv h := h

theorem touches_check (s : State) (c l : Byte) (w : CheckRun) (hw : Appends s.diag w.diag) :
    Touches (.check c l) s (s.putCheck l w) where
  cfg := rfl
  input := rfl
  rsp := rfl
  res := rfl
  tables _ := ⟨rfl, rfl, rfl⟩
  x _ _ := rfl
  z _ := rfl
  canda _ := rfl
  candb _ := rfl
  miscnt h := absurd rfl (h c l)
  diag := hw.snoc (legalKind_summary _ _)
  noDiag h _ := absurd rfl (h c l)
  tv h := h

theorem touches_rotd (s : State) (c : Byte) (d : List DiagRecord) (hd : Appends s.diag d) :
    Touches (.rotd c) s { s with diag := d } where
  cfg := rfl
  input := rfl
  rsp := rfl
  res := rfl
  tables _ := ⟨rfl, rfl, rfl⟩
  x _ _ := rfl
  z _ := rfl
  canda _ := rfl
  candb _ := rfl
  miscnt _ := rfl
  diag := hd
  noDiag _ h := absurd rfl (h c)
  tv h := h

/-- A command that answers a next state is refused with a code R163 allows it, or completed after changing only what
it may change. -/
theorem exec_ends {i : Instr} {s t : State} (h : exec i s = .next t) :
    (∃ e, errCode e ∈ possibleCodes i ∧ t = s.refuse e) ∨
    (∃ u r, Touches i s u ∧ t = u.complete r) := by
  cases i with
  | nop => cases h; exact .inr ⟨s, _, .none _ _, rfl⟩
  | mulx a => cases h; exact .inr ⟨s, _, .none _ _, rfl⟩
  | gfmul a b => cases h; exact .inr ⟨s, _, .none _ _, rfl⟩
  | kappa v => cases h; exact .inr ⟨s, _, .none _ _, rfl⟩
  | bldtab =>
    cases h; exact .inr ⟨_, _, touches_bldtab _ _, rfl⟩
  | cdir => cases h; exact .inr ⟨_, _, touches_cdir _ _, rfl⟩
  | cdlog =>
    simp only [exec, execCdlog] at h
    split at h
    · split at h
      · cases h; exact .inr ⟨_, _, touches_cdlog _ _, rfl⟩
      · cases h
    · cases h; exact .inl ⟨.notab, by decide, rfl⟩
  | check c l =>
    simp only [exec, execCheck] at h
    split at h
    · cases h; exact .inl ⟨.sel, by simp [possibleCodes, errCode], rfl⟩
    · cases h; exact .inr ⟨_, _, touches_check _ _ _ _ (appends_checkLoop _ _ _), rfl⟩
  | rotd c =>
    simp only [exec, execRotd] at h
    split at h
    · cases h; exact .inl ⟨.sel, by simp [possibleCodes, errCode], rfl⟩
    · cases h; exact .inr ⟨_, _, touches_rotd _ _ _ (appends_rotdSteps _ _ _ _ _ (.rfl' _)), rfl⟩
  | rotdx c x =>
    simp only [exec, execRotdx] at h
    split at h
    · cases h; exact .inl ⟨.sel, by simp [possibleCodes, errCode], rfl⟩
    · cases h; exact .inr ⟨s, _, .none _ _, rfl⟩
  | rdt c a =>
    simp only [exec, execRdt] at h
    split at h
    · cases h; exact .inl ⟨.sel, by simp [possibleCodes, errCode], rfl⟩
    · split at h
      · rename_i sp _ e he
        cases h
        refine .inl ⟨e, ?_, rfl⟩
        cases e <;> simp [possibleCodes, errCode] <;> (unfold rdtRefusal at he; revert he; split_ifs <;> simp)
      · split at h
        · cases h; exact .inr ⟨s, _, .none _ _, rfl⟩
        · cases h
  | rdr r =>
    simp only [exec, execRdr] at h
    split at h
    · cases h; exact .inl ⟨.sel, by simp [possibleCodes, errCode], rfl⟩
    · cases h; exact .inr ⟨s, _, .none _ _, rfl⟩

/-- What one step can do: idle, a hard reset, a word refused by the decoder, or a command. -/
theorem step_cases {s t : State} (h : step s = .next t) :
    (s.input = [] ∧ t = s) ∨
    (∃ rest, s.input = .rst :: rest ∧ t = hardReset { s with input := rest }) ∨
    (∃ w rest e, s.input = .cmd w :: rest ∧ decode w = .error e ∧
      t = ({ s with input := rest } : State).refuse e) ∨
    (∃ w rest i, s.input = .cmd w :: rest ∧ decode w = .ok i ∧ exec i { s with input := rest } = .next t) := by
  unfold step takeInput at h
  split at h
  · rename_i h0; cases h; exact .inl ⟨h0, rfl⟩
  · rename_i rest h0; cases h; exact .inr (.inl ⟨rest, h0, rfl⟩)
  · rename_i w rest h0
    unfold runWord at h
    split at h
    · rename_i i hi; exact .inr (.inr (.inr ⟨w, rest, i, h0, hi, h⟩))
    · rename_i e he; cases h; exact .inr (.inr (.inl ⟨w, rest, e, h0, he, rfl⟩))

end Sys2Proof.Machine
end

