-- ==== Sys2Proof/Laws/Field.lean ====
section
/-! SUPPORT. The powers of the generator (spec/40_gf28_tables.md rule R82): recurrence, period, and that they are the
255 non-zero bytes, each once. -/

namespace Sys2Proof.Machine

theorem genPow_zero : genPow 0 = GEN_START := rfl

theorem genPow_succ (n : Nat) : genPow (n + 1) = mulx (genPow n) := Function.iterate_succ_apply' _ _ _

/-- The generator has order 255. -/
theorem genPow_255 : genPow 255 = 0x01 := by decide +kernel

/-- The LFSR step undone: a byte whose bit 0 is set had the feedback applied. -/
def mulxInv (y : Byte) : Byte := if y.getLsbD 0 then ((y ^^^ FEEDBACK) >>> 1) ||| 0x80 else y >>> 1

theorem mulxInv_mulx : ∀ x : Byte, mulxInv (mulx x) = x := by decide +kernel

theorem mulx_injective : Function.Injective mulx := Function.LeftInverse.injective mulxInv_mulx

theorem mulx_ne_zero {x : Byte} (hx : x ≠ 0) : mulx x ≠ 0 := fun h =>
  hx (mulx_injective (h.trans (show (0 : Byte) = mulx 0 by decide)))

theorem genPow_ne_zero (n : Nat) : genPow n ≠ 0 := by
  induction n with
  | zero => decide
  | succ n ih => rw [genPow_succ]; exact mulx_ne_zero ih

/-- No power below 255 is one. -/
theorem genPow_ne_one : ∀ n : Fin 254, genPow (n.val + 1) ≠ 0x01 := by decide +kernel

theorem genPow_cancel (i d : Nat) (h : genPow (i + d) = genPow i) : genPow d = 0x01 := by
  induction i with
  | zero => rw [Nat.zero_add] at h; exact h
  | succ i ih =>
    rw [show i + 1 + d = i + d + 1 by omega, genPow_succ, genPow_succ] at h
    exact ih (mulx_injective h)

/-- The 255 powers 0..254 are distinct. -/
theorem genPow_injOn {i j : Nat} (hi : i < 255) (hj : j < 255) (h : genPow i = genPow j) : i = j := by
  have key : ∀ a b, a < b → b < 255 → genPow a ≠ genPow b := fun a b hab hb he => by
    have h1 := genPow_cancel a (b - a) (by rw [show a + (b - a) = b by omega]; exact he.symm)
    have h2 := genPow_ne_one ⟨b - a - 1, by omega⟩
    rw [show b - a - 1 + 1 = b - a by omega] at h2
    exact h2 h1
  rcases lt_trichotomy i j with hlt | heq | hgt
  · exact absurd h (key i j hlt hj)
  · exact heq
  · exact absurd h.symm (key j i hgt hi)

/-- Every non-zero byte is a power `e` in 1..255 of the generator. -/
theorem exists_genPow {x : Byte} (hx : x ≠ 0) : ∃ e, 1 ≤ e ∧ e ≤ 255 ∧ genPow e = x := by
  have hpos : ∀ y : Byte, y ≠ 0 → 0 < y.toNat := fun y hy =>
    Nat.pos_of_ne_zero fun h => hy (BitVec.eq_of_toNat_eq (by simpa using h))
  have hle : ∀ y : Byte, y.toNat < 256 := fun y => y.isLt
  let f : Fin 255 → Fin 255 := fun n =>
    ⟨(genPow n.val).toNat - 1, by have := hpos _ (genPow_ne_zero n.val); have := hle (genPow n.val); omega⟩
  have hf : Function.Injective f := fun a b hab => by
    have h0 : (genPow a.val).toNat - 1 = (genPow b.val).toNat - 1 := congrArg Fin.val hab
    have ha := hpos _ (genPow_ne_zero a.val)
    have hb := hpos _ (genPow_ne_zero b.val)
    exact Fin.ext (genPow_injOn a.isLt b.isLt (BitVec.eq_of_toNat_eq (by omega)))
  obtain ⟨n, hn⟩ := Finite.surjective_of_injective hf
    ⟨x.toNat - 1, by have := hpos _ hx; have := hle x; omega⟩
  have h0 : (genPow n.val).toNat - 1 = x.toNat - 1 := congrArg Fin.val hn
  have hgx : genPow n.val = x := by
    have := hpos _ hx
    have := hpos _ (genPow_ne_zero n.val)
    exact BitVec.eq_of_toNat_eq (by omega)
  by_cases hz : n.val = 0
  · exact ⟨255, by omega, le_rfl, by rw [genPow_255, ← hgx, hz]; rfl⟩
  · exact ⟨n.val, by omega, by omega, hgx⟩

end Sys2Proof.Machine
end

