-- ==== Sys2Proof/Laws/Loops.lean ====
section
/-! SUPPORT. What each loop of the commands leaves, said once: the walk of BLDTAB (R80), the walk of CDIR (R100), the
loop of CDLOG (R113), the comparison of CHECK (R125) and the sequence of ROTD (R137). -/

namespace Sys2Proof.Machine

/-! ### Counted loops -/

/-- A property of the loop count that each iteration carries on holds after the loop over `0..n-1`. -/
theorem foldl_range_ind {β : Type} (f : β → Nat → β) (P : Nat → β → Prop) (b : β) (n : Nat) (h0 : P 0 b)
    (hs : ∀ k c, k < n → P k c → P (k + 1) (f c k)) : P n ((List.range n).foldl f b) := by
  induction n with
  | zero => exact h0
  | succ n ih =>
    rw [List.range_succ, List.foldl_append]
    exact hs n _ (Nat.lt_succ_self n) (ih fun k c hk => hs k c (Nat.lt_succ_of_lt hk))

theorem foldl_finRange_ind {β : Type} {n : Nat} (f : β → Fin n → β) (P : Nat → β → Prop) (b : β) (h0 : P 0 b)
    (hs : ∀ (k : Fin n) c, P k c → P (k + 1) (f c k)) : P n ((List.finRange n).foldl f b) := by
  induction n with
  | zero => simpa using h0
  | succ n ih =>
    rw [List.finRange_succ_last, List.foldl_append, List.foldl_map]
    exact hs (Fin.last n) _ (ih _ fun k c hk => hs k.castSucc c hk)

theorem genPow_toNat_ne_zero (n : Nat) : (genPow n).toNat ≠ 0 := fun h =>
  genPow_ne_zero n (BitVec.eq_of_toNat_eq (by simpa using h))

theorem genPow_toNat_inj {i j : Nat} (hi : i < 255) (hj : j < 255) (h : (genPow i).toNat = (genPow j).toNat) : i = j :=
  genPow_injOn hi hj (BitVec.eq_of_toNat_eq h)

theorem byte_lt_N (b : Byte) : b.toNat < N := b.isLt

/-! ### BLDTAB -/

/-- The walk after `n` iterations, from the tables `exp0` and `log0`. -/
structure WalkAt (exp0 log0 : Memory) (n : Nat) (w : LfsrWalk) : Prop where
  x : w.x = genPow n
  exp : ∀ i, Memory.read .exp w.exp i = if i < n then some (genPow i) else Memory.read .exp exp0 i
  log : ∀ e, e < n → (e ≠ 0 ∨ n ≤ 255) → Memory.read .log w.log (genPow e).toNat = some (BitVec.ofNat 8 e)
  logZero : Memory.read .log w.log 0 = Memory.read .log log0 0
  expWf : Memory.wf .exp exp0 → Memory.wf .exp w.exp
  logWf : Memory.wf .log log0 → Memory.wf .log w.log

theorem buildTables_walkAt (exp0 log0 : Memory) : WalkAt exp0 log0 256 (buildTables exp0 log0) := by
  refine foldl_range_ind buildStep (WalkAt exp0 log0) _ 256 ⟨rfl, by simp, by simp, rfl, id, id⟩ ?_
  intro k w hk h
  refine ⟨?_, ?_, ?_, ?_, ?_, ?_⟩
  · rw [genPow_succ, ← h.x]; rfl
  · intro i
    show Memory.read .exp (Memory.write .exp w.exp k w.x) i = _
    rw [read_write, h.exp, h.x]
    by_cases hi : i = k
    · simp [hi]
    · rw [if_neg hi]
      by_cases h2 : i < k
      · rw [if_pos h2, if_pos (by omega)]
      · rw [if_neg h2, if_neg (by omega)]
  · intro e he hz
    show Memory.read .log (Memory.write .log w.log w.x.toNat (BitVec.ofNat 8 k)) (genPow e).toNat = _
    rw [read_write, h.x]
    by_cases hek : (genPow e).toNat = (genPow k).toNat
    · rw [if_pos hek]
      by_cases h255 : k = 255
      · subst h255
        rcases Nat.lt_or_ge e 255 with hlt | hge
        · have : e = 0 := genPow_toNat_inj hlt (by decide) (hek.trans (by rw [genPow_255]; rfl))
          omega
        · rw [show e = 255 by omega]
      · rcases Nat.lt_or_ge e 255 with hlt | hge
        · rw [genPow_toNat_inj hlt (by omega) hek]
        · omega
    · rw [if_neg hek]
      exact h.log e (by rcases Nat.lt_or_ge e k with h' | h'; · exact h'
                        · exact absurd (by rw [show e = k by omega]) hek) (by omega)
  · show Memory.read .log (Memory.write .log w.log w.x.toNat (BitVec.ofNat 8 k)) 0 = _
    rw [read_write_ne (by rw [h.x]; exact (genPow_toNat_ne_zero k).symm), h.logZero]
  · exact fun he => wf_write hk (h.expWf he)
  · exact fun he => wf_write (byte_lt_N _) (h.logWf he)

/-! ### CDIR -/

/-- The value stored at column `j` of row `i` (R101). -/
def directValue (c : Config) (i : Fin 15) (j : Fin 17) : Byte :=
  if hj : j.val = 0 then (if hi : i.val = 0 then Z0 else tabKAt c ⟨i.val - 1, by omega⟩)
  else tabKAt c ⟨j.val - 1, by omega⟩ ^^^ c.tabS[i]

/-- The walk after the positions `0..n-1`. -/
structure DirectAt (c : Config) (canda : Memory) (n : Nat) (w : DirectWalk) : Prop where
  x : w.x = genPow n
  zero : Memory.read .canda w.canda 0 = some P0
  stored : ∀ (i : Fin 15) (j : Fin 17), 17 * i.val + j.val < n →
    Memory.read .canda w.canda (genPow (17 * i.val + j.val)).toNat = some (directValue c i j)
  wf : Memory.wf .canda canda → Memory.wf .canda w.canda

/-- `Z` at the start of row `i`, or after the last row. -/
def rowStartZ (c : Config) (i : Nat) : Byte :=
  if i = 0 then Z0 else if h : i - 1 < 17 then tabKAt c ⟨i - 1, h⟩ else 0

theorem directRow_at (c : Config) (canda : Memory) (i : Fin 15) (w : DirectWalk)
    (h : DirectAt c canda (17 * i.val) w) (hz : w.z = rowStartZ c i.val) :
    DirectAt c canda (17 * (i.val + 1)) (directRow c w i) ∧ (directRow c w i).z = rowStartZ c (i.val + 1) := by
  have key := foldl_finRange_ind (directColumn c i)
    (fun k v => DirectAt c canda (17 * i.val + k) v ∧ (∀ hk : k < 17, v.z = directValue c i ⟨k, hk⟩)) w
    ⟨h, fun hk => by
      rw [hz]; simp only [directValue, rowStartZ, dite_true]
      split
      · rfl
      · rw [dif_pos (by omega)]⟩
    (by
      rintro k v ⟨hv, hvz⟩
      have hpos : 17 * i.val + k.val < 255 := by omega
      refine ⟨⟨?_, ?_, ?_, ?_⟩, ?_⟩
      · rw [show 17 * i.val + (k.val + 1) = 17 * i.val + k.val + 1 by omega, genPow_succ, ← hv.x]; rfl
      · show Memory.read .canda (Memory.write .canda v.canda v.x.toNat v.z) 0 = _
        rw [read_write_ne (by rw [hv.x]; exact (genPow_toNat_ne_zero _).symm), hv.zero]
      · intro i' j' hlt
        show Memory.read .canda (Memory.write .canda v.canda v.x.toNat v.z) _ = _
        rw [read_write, hv.x]
        by_cases hp : 17 * i'.val + j'.val = 17 * i.val + k.val
        · have hi : i' = i := Fin.ext (by omega)
          have hj : j' = k := Fin.ext (by omega)
          subst hi; subst hj
          rw [if_pos rfl, hvz j'.isLt]
        · rw [if_neg fun he => hp (genPow_toNat_inj (by omega) hpos he)]
          exact hv.stored i' j' (by omega)
      · exact fun hw => wf_write (byte_lt_N _) (hv.wf hw)
      · intro hk1
        show tabKAt c k ^^^ c.tabS[i] = directValue c i ⟨k.val + 1, hk1⟩
        simp [directValue])
  obtain ⟨hd, -⟩ := key
  refine ⟨⟨hd.x.trans (by rw [show 17 * (i.val + 1) = 17 * i.val + 17 by omega]), hd.zero, fun i' j' hlt => ?_, hd.wf⟩, ?_⟩
  · exact hd.stored i' j' (by omega)
  · show tabKAt c _ = _
    simp only [rowStartZ, Nat.add_sub_cancel]
    rw [if_neg (by omega), dif_pos (by omega)]
    rfl

/-- The whole walk of R100: every entry of `CANDA`, and the end values of the cursors. -/
theorem constructDirect_at (c : Config) (canda : Memory) :
    DirectAt c canda 255 (constructDirect c canda) ∧ (constructDirect c canda).z = tabKAt c 14 := by
  have start : ∀ m, (Memory.wf .canda canda → Memory.wf .canda m) →
      DirectAt c canda 0 ⟨Memory.write .canda m 0 P0, GEN_START, Z0⟩ := fun m hm =>
    ⟨rfl, read_write_self (sp := .canda) (m := m) (a := 0) (v := P0), fun i j h => absurd h (Nat.not_lt_zero _),
      fun h => wf_write (v := P0) (Nat.zero_lt_succ _) (hm h)⟩
  have key := foldl_finRange_ind (directRow c)
    (fun k v => DirectAt c canda (17 * k) v ∧ v.z = rowStartZ c k) _ ⟨start (Memory.fill .canda canda 0x00) wf_fill, rfl⟩
    (fun k v hv => directRow_at c canda k v hv.1 hv.2)
  unfold constructDirect ROWS
  refine ⟨key.1, key.2.trans ?_⟩
  simp only [rowStartZ]
  rw [if_neg (by decide), dif_pos (by decide)]
  rfl

/-! ### CDLOG -/

/-- A loop of R113 whose entries all have values writes each of them, and nothing else. -/
theorem decomposeFrom_ok (c : Config) (exp log : Memory) (out : Nat → Byte) (ks : List Nat)
    (hout : ∀ k ∈ ks, decomposedEntry c exp log k = .ok (out k)) (hlt : ∀ k ∈ ks, k < N) (m : Memory) :
    ∃ m', decomposeFrom c exp log ks m = .ok m' ∧
      (∀ a, Memory.read .candb m' a = if a ∈ ks then some (out a) else Memory.read .candb m a) ∧
      (Memory.wf .candb m → Memory.wf .candb m') := by
  induction ks generalizing m with
  | nil => exact ⟨m, rfl, by simp, id⟩
  | cons k r ih =>
    obtain ⟨m', h1, h2, h3⟩ := ih (fun n hn => hout n (List.mem_cons_of_mem _ hn))
      (fun n hn => hlt n (List.mem_cons_of_mem _ hn)) (Memory.write .candb m k (out k))
    refine ⟨m', ?_, fun a => ?_, fun hw => h3 (wf_write (hlt k List.mem_cons_self) hw)⟩
    · simp only [decomposeFrom, hout k List.mem_cons_self, h1]
    · rw [h2, read_write]
      by_cases ha : a ∈ r <;> by_cases hk : a = k <;> simp [ha, hk]

/-- The entry for the position `17 * row + col + 1` with `col < 16`: the main term (R114). -/
theorem decomposedEntry_main (c : Config) (exp log : Memory) (k : Nat) (row : Fin 15) (col : Fin 16) (l e : Byte)
    (hl : Memory.read .log log k = some l) (hpos : l.toNat = 17 * row.val + col.val + 1)
    (hs : (c.sigma[row]).toNat < 15) (he : Memory.read .exp exp (17 * (c.sigma[row]).toNat) = some e) :
    decomposedEntry c exp log k = .ok (kappa c (BitVec.ofNat 8 col.val) ^^^ e) := by
  have hdiv : (l.toNat - 1) / 17 = row.val := by omega
  have hmod : (l.toNat - 1) % 17 = col.val := by omega
  have hN : 17 * (c.sigma[row]).toNat < N := by show _ < 256; omega
  simp only [decomposedEntry, hl, hdiv, hmod]
  rw [if_pos (by omega), dif_pos row.isLt, if_pos col.isLt]
  simp only [rowTerm, Fin.eta, if_pos hN, he]

/-- The entry for the position `17 * (row + 1)`: the boundary term (R114, R116). -/
theorem decomposedEntry_boundary (c : Config) (exp log : Memory) (k : Nat) (row : Fin 15) (l : Byte)
    (hl : Memory.read .log log k = some l) (hpos : l.toNat = 17 * (row.val + 1)) :
    decomposedEntry c exp log k = .ok (kappa c (BitVec.ofNat 8 row.val)) := by
  have hdiv : (l.toNat - 1) / 17 = row.val := by omega
  have hmod : (l.toNat - 1) % 17 = 16 := by omega
  simp only [decomposedEntry, hl, hdiv, hmod]
  rw [if_pos (by omega), dif_pos row.isLt, if_neg (by omega)]

/-- An input at the position `17 * (row + 1)` takes the boundary branch. -/
theorem takesBoundary_of_boundary {s : State} {k : Nat} {row : Fin 15} {l : Byte}
    (hl : Memory.read .log s.log k = some l) (hpos : l.toNat = 17 * (row.val + 1)) : takesBoundary s k := fun exp => by
  rw [decomposedEntry_boundary s.cfg exp s.log k row l hl hpos, decomposedEntry_boundary s.cfg s.exp s.log k row l hl hpos]

/-- An input at the position `17 * row + col + 1` with `col < 16` does not: over an empty `EXP` its entry has no value. -/
theorem not_takesBoundary_of_main {s : State} {k : Nat} {row : Fin 15} {col : Fin 16} {l e : Byte}
    (hl : Memory.read .log s.log k = some l) (hpos : l.toNat = 17 * row.val + col.val + 1)
    (hs : (s.cfg.sigma[row]).toNat < 15) (he : Memory.read .exp s.exp (17 * (s.cfg.sigma[row]).toNat) = some e) :
    ¬ takesBoundary s k := fun h => by
  have h0 := h []
  rw [decomposedEntry_main s.cfg s.exp s.log k row col l e hl hpos hs he] at h0
  have hdiv : (l.toNat - 1) / 17 = row.val := by omega
  have hmod : (l.toNat - 1) % 17 = col.val := by omega
  have hN : 17 * (s.cfg.sigma[row]).toNat < N := by show _ < 256; omega
  have hempty : ∀ a, Memory.read .exp [] a = none := fun _ => rfl
  simp only [decomposedEntry, hl, hdiv, hmod] at h0
  rw [if_pos (by omega), dif_pos row.isLt, if_pos col.isLt] at h0
  simp only [rowTerm, Fin.eta, if_pos hN, hempty, reduceCtorEq] at h0

/-! ### CHECK and ROTD -/

/-- The comparison loop as a list: the mismatches of the indices `l`, in order, and their number. -/
theorem checkSteps_eq (s : State) (t : PermSpace) (label : Byte) (l : List Nat) (r : CheckRun) :
    l.foldl (checkStep s t label) r =
      let bad := (l.map (BitVec.ofNat 8)).filter (fun i => s.permEntry t i != s.refEntry i)
      ⟨r.diag ++ bad.map (fun i => mismatchRecord label i (s.permEntry t i) (s.refEntry i)),
        r.cnt + BitVec.ofNat 32 bad.length⟩ := by
  induction l generalizing r with
  | nil => simp
  | cons n l ih =>
    rw [List.foldl_cons, ih]
    simp only [checkStep]
    by_cases h : s.permEntry t (BitVec.ofNat 8 n) = s.refEntry (BitVec.ofNat 8 n)
    · simp [h]
    · simp only [h, if_false, List.map_cons]
      rw [List.filter_cons_of_pos (by simpa using h)]
      simp only [List.map_cons, List.length_cons, CheckRun.mk.injEq]
      refine ⟨by simp, ?_⟩
      rw [BitVec.add_assoc]
      congr 1
      rw [Nat.add_comm, BitVec.ofNat_add]
      rfl

/-- The sequence of ROTD as a list. -/
theorem rotdSteps_eq (s : State) (t : PermSpace) (l : List Nat) (d : List DiagRecord) :
    l.foldl (fun d n => d ++ [rotdiffRecord (BitVec.ofNat 8 n) (rotdiff s t (BitVec.ofNat 8 n))]) d =
      d ++ (l.map (BitVec.ofNat 8)).map (fun x => rotdiffRecord x (rotdiff s t x)) := by
  induction l generalizing d with
  | nil => simp
  | cons n l ih => rw [List.foldl_cons, ih]; simp

end Sys2Proof.Machine
end

