-- ==== Sys2Proof/Laws/PerInstr.lean ====
section
/-! SUPPORT. Statements about every instruction as syntax, one lemma per constructor of `Instr`. -/

/-- The encoder gives each command its opcode and keeps its must-be-zero fields zero (spec/30_encoding.md rules R61,
R63). -/
def Sys2Proof.Laws.EncodeFields.Statement (i : Sys2Proof.Instr) : Prop :=
  Sys2Proof.Opcode.ofByte (Sys2Proof.fieldOpc (Sys2Proof.encode i)) = some i.opcode ∧
    Sys2Proof.encode i &&& i.opcode.format.mbz = 0

namespace Sys2Proof.Laws.EncodeFields

open Sys2Proof

theorem nop : Statement .nop := by
  simp only [Statement, encode, fieldOpc_packFields, Instr.opcode, Opcode.format, mbz_packFields, packFields_and]
  exact ⟨by decide, by simp [packFields]⟩

theorem bldtab : Statement .bldtab := by
  simp only [Statement, encode, fieldOpc_packFields, Instr.opcode, Opcode.format, mbz_packFields, packFields_and]
  exact ⟨by decide, by simp [packFields]⟩

theorem mulx (a : Byte) : Statement (.mulx a) := by
  simp only [Statement, encode, fieldOpc_packFields, Instr.opcode, Opcode.format, mbz_packFields, packFields_and]
  exact ⟨by decide, by simp [packFields]⟩

theorem gfmul (a b : Byte) : Statement (.gfmul a b) := by
  simp only [Statement, encode, fieldOpc_packFields, Instr.opcode, Opcode.format, mbz_packFields, packFields_and]
  exact ⟨by decide, by simp [packFields]⟩

theorem cdir : Statement .cdir := by
  simp only [Statement, encode, fieldOpc_packFields, Instr.opcode, Opcode.format, mbz_packFields, packFields_and]
  exact ⟨by decide, by simp [packFields]⟩

theorem cdlog : Statement .cdlog := by
  simp only [Statement, encode, fieldOpc_packFields, Instr.opcode, Opcode.format, mbz_packFields, packFields_and]
  exact ⟨by decide, by simp [packFields]⟩

theorem kappa (v : Byte) : Statement (.kappa v) := by
  simp only [Statement, encode, fieldOpc_packFields, Instr.opcode, Opcode.format, mbz_packFields, packFields_and]
  exact ⟨by decide, by simp [packFields]⟩

theorem check (c l : Byte) : Statement (.check c l) := by
  simp only [Statement, encode, fieldOpc_packFields, Instr.opcode, Opcode.format, mbz_packFields, packFields_and]
  exact ⟨by decide, by simp [packFields]⟩

theorem rotd (c : Byte) : Statement (.rotd c) := by
  simp only [Statement, encode, fieldOpc_packFields, Instr.opcode, Opcode.format, mbz_packFields, packFields_and]
  exact ⟨by decide, by simp [packFields]⟩

theorem rotdx (c x : Byte) : Statement (.rotdx c x) := by
  simp only [Statement, encode, fieldOpc_packFields, Instr.opcode, Opcode.format, mbz_packFields, packFields_and]
  exact ⟨by decide, by simp [packFields]⟩

theorem rdt (c a : Byte) : Statement (.rdt c a) := by
  simp only [Statement, encode, fieldOpc_packFields, Instr.opcode, Opcode.format, mbz_packFields, packFields_and]
  exact ⟨by decide, by simp [packFields]⟩

theorem rdr (r : Byte) : Statement (.rdr r) := by
  simp only [Statement, encode, fieldOpc_packFields, Instr.opcode, Opcode.format, mbz_packFields, packFields_and]
  exact ⟨by decide, by simp [packFields]⟩

end Sys2Proof.Laws.EncodeFields
end

