-- ==== Sys2Proof/Machine/Assembler.lean ====
section
/-! DEFINITION. The assembly of one command (spec/30_encoding.md rules R68 and R69), from a line already cut into its
mnemonic and its operands. The machine does not use it: the host sends words. -/

namespace Sys2Proof

/-- An operand as it is written: a number, or the name of a space or register (R68). -/
inductive AsmOperand where
  | num (n : Nat)
  | name (s : String)
deriving DecidableEq, Repr

/-- A data operand: a number of one byte (R60). -/
def AsmOperand.data : AsmOperand → Option Byte
  | .num n => if n < 256 then some (BitVec.ofNat 8 n) else none
  | .name _ => none

/-- The number of a space named in the line (R40, R68). -/
def AsmOperand.space : AsmOperand → Option Byte
  | .name "REF" => some 0
  | .name "CANDA" => some 1
  | .name "CANDB" => some 2
  | .name "LOG" => some 3
  | .name "EXP" => some 4
  | .name "TAB_S" => some 5
  | .name "TAB_K" => some 6
  | .name "SIGMA" => some 7
  | .name "KBIT" => some 8
  | _ => none

/-- The number of a register named in the line (R66, R68). -/
def AsmOperand.reg : AsmOperand → Option Byte
  | .name "STATUS" => some 0
  | .name "RES" => some 1
  | .name "MISCNT" => some 2
  | .name "X" => some 3
  | .name "Z" => some 4
  | _ => none

/-- A command and its operands, selector first (the syntax column of R68); the last six lines are the
pseudo-instructions, each with its expansion (R69). -/
def assembleInstr (mnemonic : String) (ops : List AsmOperand) : Option Instr :=
  match mnemonic, ops with
  | "NOP", [] => some .nop
  | "BLDTAB", [] => some .bldtab
  | "MULX", [a] => a.data.map .mulx
  | "GFMUL", [a, b] => a.data.bind fun x => b.data.map fun y => .gfmul x y
  | "CDIR", [] => some .cdir
  | "CDLOG", [] => some .cdlog
  | "KAPPA", [v] => v.data.map .kappa
  | "CHECK", [t, label] => t.space.bind fun c => label.data.map fun l => .check c l
  | "ROTD", [t] => t.space.map .rotd
  | "ROTDX", [t, x] => t.space.bind fun c => x.data.map fun y => .rotdx c y
  | "RDT", [s, index] => s.space.bind fun c => index.data.map fun i => .rdt c i
  | "RDR", [r] => r.reg.map .rdr
  | "LOGRD", [a] => a.data.map fun x => .rdt 3 x
  | "EXPRD", [i] => i.data.map fun x => .rdt 4 x
  | "REFRD", [i] => i.data.map fun x => .rdt 0 x
  | "CHKA", [label] => label.data.map fun l => .check 1 l
  | "CHKB", [label] => label.data.map fun l => .check 2 l
  | "ANALYZE", [] => some (.rotd 0)
  | _, _ => none

/-- The command word of a line (R68). -/
def assemble (mnemonic : String) (ops : List AsmOperand) : Option Word :=
  (assembleInstr mnemonic ops).map encode

end Sys2Proof
end

