-- ==== Sys2Proof/Tests/Slice0.lean ====
section
/-! SUPPORT. The model's own tests: the checks of WellFormed, decoding of words written from spec/30_encoding.md, one or
two steps a command against the vectors of spec/95_test_vectors.md, and a witness for each statement that has
hypotheses. -/

namespace Sys2Proof.Machine.Test

/-! ### WellFormed refuses an ill-formed command, one for each check (R66, R40) -/

theorem test_wf_check : (Instr.check 3 0).wf = false ∧ (Instr.check 2 0).wf = true := by decide
theorem test_wf_rotd : (Instr.rotd 8).wf = false ∧ (Instr.rotd 0).wf = true := by decide
theorem test_wf_rotdx : (Instr.rotdx 255 0).wf = false ∧ (Instr.rotdx 1 255).wf = true := by decide
theorem test_wf_rdt_space : (Instr.rdt 9 0).selectorLegal = false ∧ (Instr.rdt 8 0).wf = true := by decide
theorem test_wf_rdt_tabS : (Instr.rdt 5 15).wf = false ∧ (Instr.rdt 5 14).wf = true := by decide
theorem test_wf_rdt_tabK : (Instr.rdt 6 17).wf = false ∧ (Instr.rdt 6 16).wf = true := by decide
theorem test_wf_rdt_sigma : (Instr.rdt 7 15).wf = false ∧ (Instr.rdt 7 14).wf = true := by decide
theorem test_wf_rdt_kbit : (Instr.rdt 8 4).wf = false ∧ (Instr.rdt 8 3).wf = true := by decide
theorem test_wf_rdr : (Instr.rdr 5).wf = false ∧ (Instr.rdr 4).wf = true := by decide

/-! ### Decoding: bits 31:24 OPC, 23:16 C, 15:8 B, 7:0 A, written out (R60, R61, R63) -/

theorem test_decode_nop : decode 0b00000000_00000000_00000000_00000000 = .ok .nop := rfl
theorem test_decode_bldtab : decode 0b00000001_00000000_00000000_00000000 = .ok .bldtab := rfl
theorem test_decode_mulx : decode 0b00000010_00000000_00000000_10000001 = .ok (.mulx 0x81) := rfl
theorem test_decode_gfmul : decode 0b00000011_00000000_10000011_01010111 = .ok (.gfmul 0x57 0x83) := rfl
theorem test_decode_cdir : decode 0b00000100_00000000_00000000_00000000 = .ok .cdir := rfl
theorem test_decode_cdlog : decode 0b00000101_00000000_00000000_00000000 = .ok .cdlog := rfl
theorem test_decode_kappa : decode 0b00000110_00000000_00000000_11110001 = .ok (.kappa 0xF1) := rfl
theorem test_decode_check : decode 0b00000111_00000010_00000000_10101010 = .ok (.check 2 0xAA) := rfl
theorem test_decode_rotd : decode 0b00001000_00000001_00000000_00000000 = .ok (.rotd 1) := rfl
theorem test_decode_rotdx : decode 0b00001001_00000010_00000000_10000001 = .ok (.rotdx 2 0x81) := rfl
theorem test_decode_rdt : decode 0b00001010_00000100_00000000_00001000 = .ok (.rdt 4 8) := rfl
theorem test_decode_rdr : decode 0b00001011_00000000_00000000_00000010 = .ok (.rdr 2) := rfl

/-- R65, R166: the first illegal opcode, the last one, and a reserved field of each format. -/
theorem test_decode_refuses :
    decode 0x0C000000 = .error .illop ∧ decode 0xFF010203 = .error .illop ∧ decode 0x00000001 = .error .rsvd ∧
    decode 0x02010080 = .error .rsvd ∧ decode 0x03010000 = .error .rsvd ∧ decode 0x08000001 = .error .rsvd ∧
    decode 0x0A090100 = .error .rsvd := ⟨rfl, rfl, rfl, rfl, rfl, rfl, rfl⟩

theorem test_decodeTableWord : decodeTableWord 32 0x0A040008 = some (.rdt 4 8) := rfl

/-! ### Assembly: the example and word columns of R68, the expansions of R69 -/

theorem test_assemble :
    assemble "NOP" [] = some 0x00000000 ∧ assemble "BLDTAB" [] = some 0x01000000 ∧
    assemble "MULX" [.num 0x80] = some 0x02000080 ∧ assemble "GFMUL" [.num 0x57, .num 0x83] = some 0x03008357 ∧
    assemble "CDIR" [] = some 0x04000000 ∧ assemble "CDLOG" [] = some 0x05000000 ∧
    assemble "KAPPA" [.num 1] = some 0x06000001 ∧ assemble "CHECK" [.name "CANDA", .num 1] = some 0x07010001 ∧
    assemble "ROTD" [.name "REF"] = some 0x08000000 ∧ assemble "ROTDX" [.name "REF", .num 0x81] = some 0x09000081 ∧
    assemble "RDT" [.name "EXP", .num 8] = some 0x0A040008 ∧ assemble "RDR" [.name "MISCNT"] = some 0x0B000002 :=
  by decide

theorem test_assemble_pseudo :
    assembleInstr "LOGRD" [.num 7] = assembleInstr "RDT" [.name "LOG", .num 7] ∧
    assembleInstr "EXPRD" [.num 7] = assembleInstr "RDT" [.name "EXP", .num 7] ∧
    assembleInstr "REFRD" [.num 7] = assembleInstr "RDT" [.name "REF", .num 7] ∧
    assembleInstr "CHKA" [.num 7] = assembleInstr "CHECK" [.name "CANDA", .num 7] ∧
    assembleInstr "CHKB" [.num 7] = assembleInstr "CHECK" [.name "CANDB", .num 7] ∧
    assembleInstr "ANALYZE" [] = assembleInstr "ROTD" [.name "REF"] := by decide

/-! ### One step a command (the vectors V1 to V10) -/

/-- The state after the host sends one word. -/
def after (s : State) (w : Nat) : Option State :=
  match step (s.withFetchWord 32 w) with
  | .next t => some t
  | .fault _ => none
  | .refused _ => none

/-- The last response. -/
def response (s : State) (w : Nat) : Option Response := (after s w).bind (·.rsp.getLast?)

theorem test_nop : response State.reset 0x00000000 = some ⟨0, 0⟩ := by decide
theorem test_nop_reserved : response State.reset 0x00000001 = some ⟨2, 0⟩ := by decide
theorem test_mulx_feedback : response State.reset 0x02000080 = some ⟨0, 0x1D⟩ := by decide
theorem test_mulx_all_ones : response State.reset 0x020000FF = some ⟨0, 0xE3⟩ := by decide
theorem test_gfmul_general : response State.reset 0x03008357 = some ⟨0, 0x31⟩ := by decide
theorem test_gfmul_left_operand : response State.reset 0x0300CA53 = some ⟨0, 0x8F⟩ := by decide
theorem test_kappa_source : response State.reset 0x06000001 = some ⟨0, 0xCE⟩ := by decide
theorem test_kappa_high_nibble : response State.reset 0x060000FF = some ⟨0, 0xFC⟩ := by decide
theorem test_illop : response State.reset 0xFF010203 = some ⟨1, 0⟩ := by decide
theorem test_rdt_ref : response State.reset 0x0A0000FF = some ⟨0, 0xB6⟩ := by decide +kernel
theorem test_rdt_range : response State.reset 0x0A080004 = some ⟨4, 0⟩ := by decide
theorem test_rdr_status : response { State.reset with status := 0x61 } 0x0B000000 = some ⟨0, 0x61⟩ := by decide
theorem test_rdr_sel : response State.reset 0x0B000005 = some ⟨3, 0⟩ := by decide
theorem test_cdlog_notab : response State.reset 0x05000000 = some ⟨5, 0⟩ := by decide
theorem test_rotdx : response State.reset 0x09000081 = some ⟨0, 0xE4⟩ := by decide +kernel
theorem test_rotd_sel : response State.reset 0x08040000 = some ⟨3, 0⟩ := by decide

/-- V8: the fourth record of `ROTD REF`. -/
theorem test_rotd : (after State.reset 0x08000000).bind (·.diag[3]?) = some 0x0300030000000020 := by decide +kernel

/-- V7: `CHECK REF` gives one SUMMARY. -/
theorem test_check_ref : (after State.reset 0x070000AA).map (·.diag) = some [0x02AA000000000000] := by decide +kernel

/-- V7: the fresh candidate differs from `REF` at 255 indices. -/
theorem test_check_fresh : (after State.reset 0x07010009).map (·.miscnt) = some 255 := by decide +kernel

/-- V3: the end of the walk, and the cell that is written twice. -/
theorem test_bldtab :
    (after State.reset 0x01000000).map (fun t => (t.x, t.status, Memory.read .log t.log 1)) =
      some (0x02, 0x01, some 255) := by decide +kernel

/-- V4: the last store and the last reset of `Z`. -/
theorem test_cdir :
    (after State.reset 0x04000000).map (fun t => (t.x, t.z, Memory.read .canda t.canda 0x8E)) =
      some (0x01, 0xEE, some 0xB9) := by decide +kernel

/-- V6: the main input `k = 3` and the boundary input `k = 1`, on tables that list only the cells they read. -/
theorem test_cdlog_entries :
    decomposedEntry defaultConfig [(204, 0xDD)] [(3, 0x19)] 3 = .ok 0x11 ∧
    decomposedEntry defaultConfig [] [(1, 0xFF)] 1 = .ok 0xEE := ⟨rfl, rfl⟩

/-- V9: a cell of a built table, and the cell that never holds a value. -/
theorem test_rdt_built :
    response { State.reset with exp := [(8, 0x1D)], status := 0x01 } 0x0A040008 = some ⟨0, 0x1D⟩ ∧
    response { State.reset with status := 0x01 } 0x0A030000 = some ⟨6, 0⟩ := by decide

/-! ### A state with built tables -/

/-- The reset state with the tables of a walk, `TV` set, and `l` sent by the host. -/
def withWalk (w : LfsrWalk) (l : List HostInput) : State :=
  { State.reset with exp := w.exp, log := w.log, x := 0x02, status := 0x01, input := l }

/-- After reset and BLDTAB. -/
def built : State := withWalk (buildTables [] []) []

theorem withWalk_tv (w : LfsrWalk) (l : List HostInput) : (withWalk w l).tv = true := by
  show (0x01 : Byte).getLsbD 0 = true; decide

theorem tables_of_walk {w : LfsrWalk} (h : WalkAt [] [] 256 w) : TablesBuilt w.exp w.log where
  expEntry i hi := by rw [h.exp, if_pos hi]
  logEntry e h1 h2 := h.log e (by omega) (.inl (by omega))
  logZero := h.logZero

theorem default_wf : defaultConfig.wf := by decide +kernel

theorem inv_of_walk {w : LfsrWalk} (h : WalkAt [] [] 256 w) (l : List HostInput) : Inv (withWalk w l) where
  cfgWf := default_wf
  logWf := h.logWf wf_nil
  expWf := h.expWf wf_nil
  candaWf := wf_nil
  candbWf := wf_nil
  tablesEmpty ht := by rw [withWalk_tv] at ht; cases ht
  tablesBuilt _ := tables_of_walk h
  statusReserved := by show (0x01 : Byte).extractLsb' 1 3 = 0; decide
  errLegal := by show ((0x01 : Byte).extractLsb' 4 4).toNat ≤ 6; decide
  miscntBound := by show (0 : Word).toNat ≤ 256; decide
  diagKinds r h := absurd h List.not_mem_nil
  lastResponse r h := by cases h

theorem built_inv : Inv built := inv_of_walk (buildTables_walkAt [] []) []

theorem built_tv : built.tv = true := withWalk_tv _ _

theorem reset_inv (l : List HostInput) : Inv { State.reset with input := l } where
  cfgWf := default_wf
  logWf := wf_nil
  expWf := wf_nil
  candaWf := wf_nil
  candbWf := wf_nil
  tablesEmpty _ := ⟨rfl, rfl⟩
  tablesBuilt h := absurd (show (0x00 : Byte).getLsbD 0 = true from h) (by decide)
  statusReserved := by show (0x00 : Byte).extractLsb' 1 3 = 0; decide
  errLegal := by show ((0x00 : Byte).extractLsb' 4 4).toNat ≤ 6; decide
  miscntBound := by show (0 : Word).toNat ≤ 256; decide
  diagKinds r h := absurd h List.not_mem_nil
  lastResponse r h := by cases h

theorem default_constants : defaultConstants State.reset.cfg := ⟨Config.openTabK16, rfl⟩

/-- A state whose `REF` is the identity. -/
def identityRef : State :=
  { State.reset with cfg := { defaultConfig with ref := Vector.ofFn fun i => BitVec.ofNat 8 i.val } }

theorem identityRef_refEntry (i : Byte) : identityRef.refEntry i = i := by
  simp [identityRef, State.refEntry]

theorem identityRef_bijective : Function.Bijective identityRef.refEntry := by
  rw [show identityRef.refEntry = id from funext identityRef_refEntry]; exact Function.bijective_id

/-! ### Witnesses: states and operands that meet all the hypotheses of a statement together, one for each clause -/

/-- A fresh state in which the host sends the word `w`. -/
def sent (w : Word) : State := { State.reset with input := [.cmd w] }

theorem witness_DecodeThenEncode : decode 0x060000F1 = .ok (.kappa 0xF1) := rfl

theorem witness_StepRunsDecodedCommand :
    (sent 0x0A090000).input = .cmd 0x0A090000 :: [] ∧ decode 0x0A090000 = .ok (.rdt 9 0) := ⟨rfl, rfl⟩

theorem witness_UndecodedWordIsRefused :
    (sent 0x0C000000).input = .cmd 0x0C000000 :: [] ∧ 0x0B < (fieldOpc 0x0C000000).toNat ∧
    (sent 0x0B000100).input = .cmd 0x0B000100 :: [] ∧ reservedFieldSet 0x0B000100 := by decide

/-- The two clauses exclude each other. -/
theorem illop_not_reserved (w : Word) (h : 0x0B < (fieldOpc w).toNat) : ¬ reservedFieldSet w := by
  simp only [reservedFieldSet]; omega

theorem witness_IdleKeepsState : State.reset.input = [] := rfl

theorem witness_HardResetValues (w : LfsrWalk) : (withWalk w [.rst]).input = .rst :: [] := rfl

theorem witness_DefaultConstantsAgree : defaultConstants State.reset.cfg := default_constants

theorem witness_StepKeepsInvariant :
    Inv (sent 0x00000000) ∧ step (sent 0x00000000) = .next (State.reset.complete 0) := ⟨reset_inv _, rfl⟩

theorem witness_StepNeverStops : Inv (sent 0x05000000) := reset_inv _

theorem witness_CommandSequencesRunToTheirEnd :
    Inv (sent 0x01000000) ∧ ∀ h ∈ (sent 0x01000000).input, ∃ w, h = .cmd w :=
  ⟨reset_inv _, fun _ h => ⟨0x01000000, List.mem_singleton.1 h⟩⟩

theorem witness_MutableTableContentsStayFinite :
    Inv (sent 0x00000000) ∧ ContentsFinite (sent 0x00000000) ∧
      step (sent 0x00000000) = .next (State.reset.complete 0) :=
  ⟨reset_inv _, ⟨.inl rfl, .inl rfl, .inl ⟨rfl, rfl⟩⟩, rfl⟩

theorem witness_StepKeepsConstants : step (sent 0x00000000) = .next (State.reset.complete 0) := rfl

theorem witness_OnlyTheNamedCommandWrites : exec .nop State.reset = .next (State.reset.complete 0) := rfl

theorem witness_RefusedCommandChangesNothingElse :
    (exec (.rdr 5) State.reset = .next (State.reset.refuse .sel) ∧ (State.reset.refuse .sel).err ≠ 0) ∧
    (sent 0x0B000005).input = .cmd 0x0B000005 :: [] ∧ step (sent 0x0B000005) = .next (State.reset.refuse .sel) :=
  ⟨⟨rfl, by decide⟩, rfl, rfl⟩

theorem witness_OneResponsePerCommand : exec (.rdr 5) State.reset = .next (State.reset.refuse .sel) := rfl

theorem witness_CodesEachCommandCanEndWith :
    (sent 0x05000000).input = .cmd 0x05000000 :: [] ∧
      step (sent 0x05000000) = .next (State.reset.refuse .notab) ∧
    (0x0B : Byte).toNat ≤ 0x0B ∧ (3 : Code) ∈ codesOfOpcode (0x0B : Byte).toNat := ⟨rfl, rfl, by decide, by decide⟩

/-- Every value of the verdict, at boundary operands. -/
theorem witness_FirstFailingCheckDecidesTheCode :
    Inv (sent 0x0C000000) ∧ Inv (withWalk (buildTables [] []) [.cmd 0x0A030000]) ∧
    verdict 0x0C000000 false = 1 ∧ verdict 0x0B000100 false = 2 ∧ verdict 0x07030000 false = 3 ∧
    verdict 0x0A05000F false = 4 ∧ verdict 0x0A030000 false = 5 ∧ verdict 0x0A030000 true = 6 ∧
    verdict 0x0A05000E false = 0 :=
  ⟨reset_inv _, inv_of_walk (buildTables_walkAt [] []) _, by decide, by decide, by decide, by decide, by decide, by decide, by decide⟩

theorem witness_TvIsClearedOnlyByReset (w : LfsrWalk) :
    (step (withWalk w [.rst]) = .next (hardReset (withWalk w [])) ∧ (withWalk w [.rst]).tv = true ∧
      (hardReset (withWalk w [])).tv = false) ∧
    ((sent 0x01000000).tv = false ∧ ∃ t, step (sent 0x01000000) = .next t ∧ t.tv = true) :=
  ⟨⟨rfl, withWalk_tv _ _, by show (0x00 : Byte).getLsbD 0 = false; decide⟩, rfl, _, rfl, by rw [complete_tv]; exact setTv_tv _⟩

theorem witness_DiagOnlyGrows : exec (.rotd 9) State.reset = .next (State.reset.refuse .sel) := rfl

/-- A state no run reaches: `TV` set and the tables empty. -/
theorem witness_TabK16IsSeenOnlyByItsOwnRead :
    Instr.cdir ≠ .rdt 6 16 ∧ (∃ t, exec .cdir State.reset = .next t) ∧
    Instr.rdt 4 0 ≠ .rdt 6 16 ∧ exec (.rdt 4 0) { State.reset with status := 0x01 } = .fault .noValue :=
  ⟨by decide, ⟨_, rfl⟩, by decide, rfl⟩

theorem witness_NopResult :
    (sent (packFields 0x00 0 0 0)).input = .cmd (packFields 0x00 0 0 0) :: [] ∧
    (sent (packFields 0x00 0 0 1)).input = .cmd (packFields 0x00 0 0 1) :: [] := ⟨rfl, rfl⟩

/-- The word clauses of the other commands, one word each with its must-be-zero fields zero and one with one set. -/
theorem witness_word_clauses :
    (∀ o b : Byte, (sent (packFields o 0 b 0)).input = .cmd (packFields o 0 b 0) :: []) := fun _ _ => rfl

theorem witness_MulxHasOrder255 : (1 : Byte) ≠ 0 ∧ 0 < 254 ∧ 254 < 255 := by decide

theorem witness_GfmulLaws : (0x01 : Byte) ≠ 0 ∧ (0xFF : Byte) ≠ 0 := by decide

theorem witness_GfmulByTheTables : Inv built ∧ built.tv = true ∧ (0x01 : Byte) ≠ 0 ∧ (0xFF : Byte) ≠ 0 :=
  ⟨built_inv, built_tv, by decide, by decide⟩

theorem witness_BldtabResult : (0 < 256 ∧ 255 < 256) ∧ (1 ≤ 1 ∧ 1 ≤ 255) ∧ (1 ≤ 255 ∧ 255 ≤ 255) := by decide

theorem witness_LogAndExpAreInverse : (0x01 : Byte) ≠ 0 ∧ (0xFF : Byte) ≠ 0 := by decide

theorem witness_BldtabRepeatsToTheSameState : Inv State.reset := reset_inv []

theorem witness_CdirRebuildsRef : defaultConstants State.reset.cfg := default_constants

theorem witness_KappaIsAffine :
    defaultConstants defaultConfig ∧ (0x00 : Byte).toNat < 16 ∧ (0x0F : Byte).toNat < 16 :=
  ⟨default_constants, by decide, by decide⟩

theorem witness_CdlogResult : (Inv built ∧ built.tv = true) ∧ State.reset.tv = false :=
  ⟨⟨built_inv, built_tv⟩, by decide⟩

theorem witness_CdlogBuildsTheClosedForm : Inv built ∧ built.tv = true := ⟨built_inv, built_tv⟩

theorem witness_CdlogRebuildsRef : Inv built ∧ built.tv = true ∧ defaultConstants built.cfg :=
  ⟨built_inv, built_tv, default_constants⟩

theorem witness_BoundaryBranchTakenFifteenTimes : Inv built ∧ built.tv = true := ⟨built_inv, built_tv⟩

theorem witness_ConstructorsAgree :
    Inv built ∧ built.tv = true ∧
    (∀ j : Fin 16, built.cfg.tabK[j] = kappa built.cfg (BitVec.ofNat 8 j.val)) ∧
    (∀ i : Fin 15, built.cfg.tabS[i] = genPow (17 * (built.cfg.sigma[i]).toNat)) ∧
    kappa built.cfg 14 = 0xEE :=
  ⟨built_inv, built_tv, by decide +kernel, by decide +kernel, by decide +kernel⟩

theorem witness_ConstructorsCommute : Inv built ∧ built.tv = true := ⟨built_inv, built_tv⟩

theorem witness_CheckResult :
    ((0, PermSpace.ref) ∈ permSelectors ∧ (2, PermSpace.candb) ∈ permSelectors) ∧ 2 < (3 : Byte).toNat := by decide

theorem witness_CheckCountIsZeroExactlyOnEquality :
    (0, PermSpace.ref) ∈ permSelectors ∧ Function.Bijective identityRef.refEntry ∧
    ∃ u, exec (.check 0 0) identityRef = .next u ∧ u.res = 0 := by
  refine ⟨by decide, identityRef_bijective, _, rfl, ?_⟩
  rw [complete_res, checkLoop, checkSteps_eq]
  simp [State.permEntry]

theorem witness_RotlMovesEveryBitUp : 0 < 7 ∧ 6 < 7 := by decide

theorem witness_RotdiffZeros :
    Function.Bijective (identityRef.permEntry .ref) ∧ rotdiff identityRef .ref 0xFF = 0 :=
  ⟨identityRef_bijective, by simp [rotdiff, State.permEntry, identityRef_refEntry, rotl1]⟩

theorem witness_RotdResult : (1, PermSpace.canda) ∈ permSelectors ∧ 2 < (3 : Byte).toNat := by decide

theorem witness_RotdIsRestartable : (0, PermSpace.ref) ∈ permSelectors := by decide

theorem witness_RotdxResult : (2, PermSpace.candb) ∈ permSelectors ∧ 2 < (3 : Byte).toNat := by decide

theorem witness_RotdxIsAnElementOfRotd : (0, PermSpace.ref) ∈ permSelectors := by decide

/-- The clauses of RDT, at the ends of their ranges; no index meets both a read and a range clause. -/
theorem witness_RdtResult :
    (built.tv = true ∧ (0x01 : Byte) ≠ 0 ∧ Memory.read .log built.log (genPow 255).toNat = some 255) ∧
    Memory.read .exp built.exp 255 = some (genPow 255) ∧
    (14 : Byte).toNat < 15 ∧ (15 : Byte).toNat < 16 ∧ 8 < (9 : Byte).toNat ∧
    15 ≤ (15 : Byte).toNat ∧ 17 ≤ (17 : Byte).toNat ∧ 4 ≤ (4 : Byte).toNat ∧
    (((3 : Byte) = 3 ∨ (3 : Byte) = 4) ∧ State.reset.tv = false) :=
  ⟨⟨built_tv, by decide, built_inv.tablesBuilt built_tv |>.logEntry 255 (by decide) (by decide)⟩,
    built_inv.tablesBuilt built_tv |>.expEntry 255 (by decide), by decide, by decide, by decide, by decide, by decide,
    by decide, .inl rfl, by decide⟩

theorem witness_RdtReadsBuiltTables : Inv built ∧ built.tv = true ∧ (0x01 : Byte) ≠ 0 :=
  ⟨built_inv, built_tv, by decide⟩

theorem witness_RdrResult : 4 < (5 : Byte).toNat := by decide

end Sys2Proof.Machine.Test
end

/-! PROOFS of the family 00_scope.md: what one step does with each thing the host sends (spec/00_scope.md rule R8), and
that from the invariant no internal read faults (spec/60_exceptions.md rule R168). -/

namespace Sys2Proof.Machine

variable {s : State} {w : Word} {rest : List HostInput} {c : Config} {exp log m : Memory} {sp : Space} {a k : Nat}

/-! ### The step, one equation for each thing the host can send -/

theorem step_idle (h : s.input = []) : step s = .next s := by
  simp only [step, takeInput, h]

theorem step_rst (h : s.input = .rst :: rest) : step s = .next (hardReset { s with input := rest }) := by
  simp only [step, takeInput, h]

theorem step_cmd (h : s.input = .cmd w :: rest) : step s = runWord w { s with input := rest } := by
  simp only [step, takeInput, h]

theorem runWord_of_decode_ok {i : Instr} (h : decode w = .ok i) : runWord w s = exec i s := by
  simp only [runWord, h]

theorem runWord_of_decode_error {e : Err} (h : decode w = .error e) : runWord w s = .next (s.refuse e) := by
  simp only [runWord, h]

/-- No clause of the invariant speaks of what the host sends next. -/
theorem Inv.withInput (h : Inv s) (l : List HostInput) : Inv { s with input := l } :=
  ⟨h.cfgWf, h.logWf, h.expWf, h.candaWf, h.candbWf, h.tablesEmpty, h.tablesBuilt, h.statusReserved, h.errLegal,
    h.miscntBound, h.diagKinds, h.lastResponse⟩

/-! ### The reads of CDLOG on built tables (R113, R114) -/

theorem sigma_lt (hc : c.wf) (row : Fin 15) : (c.sigma[row]).toNat < 15 :=
  hc.1 _ (Vector.mem_toList_iff.2 (Vector.getElem_mem row.isLt))

/-- Every non-zero index of a built `LOG` holds its exponent, which is in 1..255 (R81). -/
theorem TablesBuilt.exists_log (h : TablesBuilt exp log) (h1 : 1 ≤ k) (h255 : k ≤ 255) :
    ∃ e, 1 ≤ e ∧ e ≤ 255 ∧ (genPow e).toNat = k ∧ Memory.read .log log k = some (BitVec.ofNat 8 e) := by
  have hk : (BitVec.ofNat 8 k).toNat = k := Nat.mod_eq_of_lt (by omega)
  have hne : BitVec.ofNat 8 k ≠ 0 := fun h0 => by rw [h0] at hk; simp at hk; omega
  obtain ⟨e, he1, he255, hek⟩ := exists_genPow hne
  have hcell : (genPow e).toNat = k := by rw [hek, hk]
  exact ⟨e, he1, he255, hcell, hcell ▸ h.logEntry e he1 he255⟩

/-- An exponent 1..255 is the position of a row and a column: every input of CDLOG has its entry (R95, R114). -/
theorem decomposedEntry_ok (hc : c.wf) (h : TablesBuilt exp log) (h1 : 1 ≤ k) (h255 : k ≤ 255) :
    ∃ out, decomposedEntry c exp log k = .ok out := by
  obtain ⟨e, he1, he255, -, hlog⟩ := h.exists_log h1 h255
  have hpos : (BitVec.ofNat 8 e).toNat = e := Nat.mod_eq_of_lt (by omega)
  let row : Fin 15 := ⟨(e - 1) / 17, by omega⟩
  by_cases hcol : (e - 1) % 17 < 16
  · have hsigma := sigma_lt hc row
    exact ⟨_, decomposedEntry_main c exp log k row ⟨(e - 1) % 17, hcol⟩ _ _ hlog (by simp only [hpos, row]; omega)
      hsigma (h.expEntry _ (by omega))⟩
  · exact ⟨_, decomposedEntry_boundary c exp log k row _ hlog (by simp only [hpos, row]; omega)⟩

/-- On built tables the whole of R113 runs to its end, and leaves in each cell the entry of its index. -/
theorem constructDecomposed_ok (hc : c.wf) (h : TablesBuilt exp log) (m : Memory) :
    ∃ m', constructDecomposed c exp log m = .ok m' ∧ Memory.read .candb m' 0 = some P0 ∧
      (∀ k, 1 ≤ k → k ≤ 255 →
        ∃ out, decomposedEntry c exp log k = .ok out ∧ Memory.read .candb m' k = some out) ∧
      (Memory.wf .candb m → Memory.wf .candb m') := by
  have entry : ∀ k, ∃ out, k ∈ List.range' 1 255 → decomposedEntry c exp log k = .ok out := fun k => by
    by_cases hk : k ∈ List.range' 1 255
    · obtain ⟨h1, h256⟩ := List.mem_range'_1.1 hk
      exact (decomposedEntry_ok hc h h1 (by omega)).imp fun _ hout _ => hout
    · exact ⟨0, fun hmem => absurd hmem hk⟩
  choose out hout using entry
  obtain ⟨m', hrun, hread, hwf⟩ := decomposeFrom_ok c exp log out (List.range' 1 255) hout
    (fun k hk => by have := List.mem_range'_1.1 hk; show k < 256; omega)
    (Memory.write .candb (Memory.fill .candb m 0x00) 0 P0)
  refine ⟨m', hrun, ?_, fun k h1 h255 => ?_, fun hm => hwf (wf_write (Nat.zero_lt_succ _) (wf_fill hm))⟩
  · rw [hread, if_neg (by simp), read_write_self]
  · have hk : k ∈ List.range' 1 255 := List.mem_range'_1.2 ⟨h1, by omega⟩
    exact ⟨out k, hout k hk, by rw [hread, if_pos hk]⟩

theorem execCdlog_next (hs : Inv s) : ∃ t, execCdlog s = .next t := by
  unfold execCdlog
  split
  · rename_i htv
    obtain ⟨m, hm, -⟩ := constructDecomposed_ok hs.cfgWf (hs.tablesBuilt htv) s.candb
    exact ⟨_, by rw [hm]⟩
  · exact ⟨_, rfl⟩

/-! ### The read of RDT (R146) -/

/-- The checks of R146 pass exactly for a cell of the space, of built tables where the space needs them, and not for
`LOG[0]`. -/
theorem rdtRefusal_eq_none_iff :
    rdtRefusal s sp a = none ↔
      a < spaceLen sp ∧ (spaceNeedsTables sp = true → s.tv = true) ∧ ¬ (sp = .log ∧ a = 0) := by
  unfold rdtRefusal
  split_ifs <;> simp_all

/-- A cell of a candidate always holds a value (R21, R30). -/
theorem exists_read_of_unlisted {v : Byte} (h : unlisted sp = some v) : ∃ u, Memory.read sp m a = some u := by
  unfold Memory.read
  split
  · exact ⟨_, rfl⟩
  · exact ⟨v, h⟩

/-- A cell that no check of R146 refuses holds a value (R42, R43). -/
theorem spaceEntry_of_rdtRefusal_none (hs : Inv s) (h : rdtRefusal s sp a = none) :
    ∃ v, s.spaceEntry sp a = some v := by
  obtain ⟨hlen, htv, hundef⟩ := rdtRefusal_eq_none_iff.1 h
  cases sp with
  | ref => exact ⟨_, Vector.getElem?_eq_getElem hlen⟩
  | canda => simpa only [State.spaceEntry, if_pos (show a < N from hlen)] using exists_read_of_unlisted rfl
  | candb => simpa only [State.spaceEntry, if_pos (show a < N from hlen)] using exists_read_of_unlisted rfl
  | log =>
    have ha : a < 256 := hlen
    have hne : a ≠ 0 := fun h0 => hundef ⟨rfl, h0⟩
    obtain ⟨e, -, -, -, hlog⟩ := (hs.tablesBuilt (htv rfl)).exists_log (k := a) (by omega) (by omega)
    exact ⟨_, (if_pos hlen).trans hlog⟩
  | exp => exact ⟨_, (if_pos hlen).trans ((hs.tablesBuilt (htv rfl)).expEntry a hlen)⟩
  | tabS => exact ⟨_, Vector.getElem?_eq_getElem hlen⟩
  | tabK => exact ⟨_, dif_pos hlen⟩
  | sigma => exact ⟨_, Vector.getElem?_eq_getElem hlen⟩
  | kbit => exact ⟨_, dif_pos hlen⟩

theorem execRdt_next (hs : Inv s) (c index : Byte) : ∃ t, execRdt c index s = .next t := by
  unfold execRdt
  split
  · exact ⟨_, rfl⟩
  · split
    · exact ⟨_, rfl⟩
    · rename_i hchecks
      obtain ⟨v, hv⟩ := spaceEntry_of_rdtRefusal_none hs hchecks
      exact ⟨_, by rw [hv]⟩

/-! ### Every command ends (R8) -/

/-- From the invariant a command completes or is refused: only CDLOG and RDT read cells that could hold no value. -/
theorem exec_next (hs : Inv s) (i : Instr) : ∃ t, exec i s = .next t := by
  cases i with
  | nop | bldtab | mulx | gfmul | cdir | kappa => exact ⟨_, rfl⟩
  | cdlog => exact execCdlog_next hs
  | check => simp only [exec, execCheck]; split <;> exact ⟨_, rfl⟩
  | rotd => simp only [exec, execRotd]; split <;> exact ⟨_, rfl⟩
  | rotdx => simp only [exec, execRotdx]; split <;> exact ⟨_, rfl⟩
  | rdt c index => exact execRdt_next hs c index
  | rdr => simp only [exec, execRdr]; split <;> exact ⟨_, rfl⟩

theorem runWord_next (hs : Inv s) (w : Word) : ∃ t, runWord w s = .next t := by
  cases hd : decode w with
  | ok i => rw [runWord_of_decode_ok hd]; exact exec_next hs i
  | error e => exact ⟨_, runWord_of_decode_error hd⟩

theorem step_next (hs : Inv s) : ∃ t, step s = .next t := by
  cases hin : s.input with
  | nil => exact ⟨_, step_idle hin⟩
  | cons h rest =>
    cases h with
    | rst => exact ⟨_, step_rst hin⟩
    | cmd w => rw [step_cmd hin]; exact runWord_next (hs.withInput rest) w

/-- Settles O13: by the kind of input; a word's command ends because the invariant gives every cell it reads a value. -/
theorem stepNeverStops : Obligations.StepNeverStops := fun _ hs => step_next hs

/-- Settles O5, by the step's equation for a word on `CMD`. -/
theorem stepRunsDecodedCommand : Obligations.StepRunsDecodedCommand := fun _ _ _ _ hin hd =>
  (step_cmd hin).trans (runWord_of_decode_ok hd)

end Sys2Proof.Machine

/-! PROOFS of the family 10_state.md: the values after reset (R30), the ties between the default constants (R19), and
what no step or command does to the constants, `STATUS`, the responses and `DIAG` (R11, R13, R26, R27). -/

namespace Sys2Proof.Machine

variable {s t u : State} {i : Instr} {w : Word}

/-! ### What every command leaves (R11, R13, R26, R27) -/

theorem exec_cfg (h : exec i s = .next t) : t.cfg = s.cfg := by
  obtain ⟨e, -, rfl⟩ | ⟨u, r, hu, rfl⟩ := exec_ends h
  · exact refuse_cfg s e
  · exact hu.cfg

theorem exec_diag (h : exec i s = .next t) : Appends s.diag t.diag := by
  obtain ⟨e, -, rfl⟩ | ⟨u, r, hu, rfl⟩ := exec_ends h
  · exact .rfl' _
  · exact hu.diag

theorem exec_rsp (h : exec i s = .next t) : t.rsp = s.rsp ++ [⟨t.err, t.res⟩] := by
  obtain ⟨e, -, rfl⟩ | ⟨u, r, hu, rfl⟩ := exec_ends h
  · simp
  · simp [hu.rsp]

theorem exec_err_le (h : exec i s = .next t) : t.err.toNat ≤ 6 := by
  obtain ⟨e, -, rfl⟩ | ⟨u, r, -, rfl⟩ := exec_ends h
  · simpa using errCode_le e
  · simp [okCode]

/-- Both ends of a command write `STATUS` by `packStatus`, whose bits 3:1 are zero. -/
theorem exec_status_reserved (h : exec i s = .next t) : t.status.extractLsb' 1 3 = 0 := by
  obtain ⟨e, -, rfl⟩ | ⟨u, r, -, rfl⟩ := exec_ends h <;> exact packStatus_reserved _ _

/-! ### `TV` (R26) -/

theorem exec_bldtab_tv (h : exec .bldtab s = .next t) : t.tv = true := by
  cases h
  exact (complete_tv _ _).trans (setTv_tv _)

theorem Touches.tv_eq (h : Touches i s u) (hi : i ≠ .bldtab) : u.tv = s.tv := by
  obtain ⟨-, -, hstatus⟩ := h.tables hi
  rw [State.tv, hstatus, State.tv]

theorem exec_tv_of_ne_bldtab (h : exec i s = .next t) (hi : i ≠ .bldtab) : t.tv = s.tv := by
  obtain ⟨e, -, rfl⟩ | ⟨u, r, hu, rfl⟩ := exec_ends h
  · exact refuse_tv s e
  · rw [complete_tv, hu.tv_eq hi]

theorem hardReset_tv (s : State) : (hardReset s).tv = false := by
  show (0x00 : Byte).getLsbD 0 = false
  decide

/-! ### The word of BLDTAB (R63, R65) -/

theorem decode_eq_ok_iff :
    decode w = .ok i ↔
      ∃ op, Opcode.ofByte (fieldOpc w) = some op ∧ w &&& op.format.mbz = 0 ∧ op.operands w = i := by
  unfold decode
  cases Opcode.ofByte (fieldOpc w) with
  | none => simp
  | some op => by_cases hz : w &&& op.format.mbz = 0#32 <;> simp [hz]

theorem opcode_operands (op : Opcode) (w : Word) : (op.operands w).opcode = op := by cases op <;> rfl

theorem ofByte_eq_bldtab : ∀ o : Byte, Opcode.ofByte o = some .bldtab → o = 0x01 := by decide +kernel

/-- Its opcode fixes bits 31:24 and its format the other 24. -/
theorem word_of_decode_bldtab (h : decode w = .ok .bldtab) : w = 0x01000000 := by
  obtain ⟨op, hop, hmbz, hi⟩ := decode_eq_ok_iff.1 h
  obtain rfl : op = .bldtab := by rw [← opcode_operands op w, hi]; rfl
  have hhigh : w.toNat >>> 24 % 2 ^ 8 = 1 := congrArg BitVec.toNat (ofByte_eq_bldtab _ hop)
  have hlow : w.toNat % 2 ^ 24 = 0 := by
    rw [← Nat.and_two_pow_sub_one_eq_mod]
    exact congrArg BitVec.toNat hmbz
  have hw := w.isLt
  rw [Nat.shiftRight_eq_div_pow] at hhigh
  exact BitVec.eq_of_toNat_eq (by show w.toNat = 0x01000000; omega)

/-- What one step can do to `TV` (R26): leave it, clear it by a reset pulse, set it by the word of BLDTAB. -/
theorem step_tv_cases (h : step s = .next t) :
    t.tv = s.tv ∨
    (t.tv = false ∧ ∃ rest, s.input = .rst :: rest) ∨
    (t.tv = true ∧ ∃ rest, s.input = .cmd 0x01000000 :: rest) := by
  obtain ⟨-, rfl⟩ | ⟨rest, hin, rfl⟩ | ⟨w, rest, e, -, -, rfl⟩ | ⟨w, rest, i, hin, hdec, hexec⟩ := step_cases h
  · exact .inl rfl
  · exact .inr (.inl ⟨hardReset_tv _, rest, hin⟩)
  · exact .inl (refuse_tv _ e)
  · by_cases hi : i = .bldtab
    · subst hi
      exact .inr (.inr ⟨exec_bldtab_tv hexec, rest, word_of_decode_bldtab hdec ▸ hin⟩)
    · exact .inl (exec_tv_of_ne_bldtab (s := { s with input := rest }) hexec hi)

/-! ### The statements about steps and commands -/

/-- Settles O16: by the cases of a step. -/
theorem stepKeepsConstants : Obligations.StepKeepsConstants := by
  intro s t h
  obtain ⟨-, rfl⟩ | ⟨rest, -, rfl⟩ | ⟨w, rest, e, -, -, rfl⟩ | ⟨w, rest, i, -, -, hexec⟩ := step_cases h
  · rfl
  · rfl
  · rfl
  · exact exec_cfg (s := { s with input := rest }) hexec

/-- Settles O19, by the two ways a command ends. -/
theorem oneResponsePerCommand : Obligations.OneResponsePerCommand := fun _ _ _ h =>
  ⟨exec_rsp h, exec_err_le h, exec_status_reserved h⟩

/-- Settles O22: by the three things a step can do to `TV`. -/
theorem tvIsClearedOnlyByReset : Obligations.TvIsClearedOnlyByReset := by
  intro s t h
  obtain hsame | ⟨hclear, hrst⟩ | ⟨hset, hword⟩ := step_tv_cases h
  · exact ⟨fun h1 h0 => by simp [hsame, h1] at h0, fun h0 h1 => by simp [hsame, h0] at h1⟩
  · exact ⟨fun _ _ => hrst, fun _ h1 => by simp [hclear] at h1⟩
  · exact ⟨fun _ h0 => by simp [hset] at h0, fun _ _ => hword⟩

/-- Settles O23, by the records of each command. -/
theorem diagOnlyGrows : Obligations.DiagOnlyGrows := fun _ _ _ h => exec_diag h

/-! ### The default constants (R14 to R19): only `TAB_K[16]` may differ from the default configuration -/

section

variable (h : defaultConstants s.cfg)
include h

theorem refEntry_of_default (x : Byte) : s.refEntry x = refDefault[x.toNat] := by
  obtain ⟨v, hv⟩ := h; rw [State.refEntry, hv]; rfl

theorem tabS_of_default : s.cfg.tabS = tabSDefault := by obtain ⟨v, hv⟩ := h; rw [hv]; rfl

theorem tabK_of_default : s.cfg.tabK = tabKDefault := by obtain ⟨v, hv⟩ := h; rw [hv]; rfl

theorem sigma_of_default : s.cfg.sigma = sigmaDefault := by obtain ⟨v, hv⟩ := h; rw [hv]; rfl

theorem kappa_of_default (x : Byte) : kappa s.cfg x = kappa defaultConfig x := by
  obtain ⟨v, hv⟩ := h; rw [hv]; rfl

end

theorem tabKAt_zero (c : Config) : tabKAt c 0 = c.tabK[0] := rfl

/-- Sorted, the default `REF` is 0..255 (R14). -/
theorem insertionSort_refRows : (refRows.map BitVec.toNat).insertionSort (· ≤ ·) = List.range 256 := by
  decide +kernel

theorem mem_refRows (y : Byte) : y ∈ refRows := by
  have hy : y.toNat ∈ refRows.map BitVec.toNat := by
    rw [← List.mem_insertionSort (· ≤ ·), insertionSort_refRows]
    exact List.mem_range.2 y.isLt
  obtain ⟨x, hx, hxy⟩ := List.mem_map.1 hy
  exact BitVec.eq_of_toNat_eq hxy ▸ hx

theorem refDefault_surjective (y : Byte) : ∃ x : Byte, refDefault[x.toNat] = y := by
  obtain ⟨n, hn, rfl⟩ := List.getElem_of_mem (mem_refRows y)
  have hlt : n < 256 := refDefault.size_toArray ▸ hn
  refine ⟨BitVec.ofNat 8 n, ?_⟩
  have hx : (BitVec.ofNat 8 n).toNat = n := Nat.mod_eq_of_lt hlt
  simp only [hx]
  rfl

theorem refEntry_bijective_of_default (h : defaultConstants s.cfg) : Function.Bijective s.refEntry :=
  Finite.surjective_iff_bijective.1 fun y =>
    (refDefault_surjective y).imp fun x hx => (refEntry_of_default h x).trans hx

/-! The ties of R19, between the default tables. -/

theorem tabKDefault_zero : tabKDefault[0] = refDefault[(genPow 17).toNat] := by decide +kernel

theorem tabSDefault_eq :
    ∀ i : Fin 15, tabSDefault[i] = refDefault[(genPow (17 * i.val + 1)).toNat] ^^^ tabKDefault[0] := by decide +kernel

theorem tabKDefault_eq :
    ∀ j : Fin 16, tabKDefault[j] = refDefault[(genPow (j.val + 1)).toNat] ^^^ tabSDefault[0] := by decide +kernel

theorem kappa_default_eq :
    ∀ r : Fin 15, kappa defaultConfig (BitVec.ofNat 8 r.val) = refDefault[(genPow (17 * (r.val + 1))).toNat] := by
  decide +kernel

theorem genPow_sigmaDefault_eq :
    ∀ r : Fin 15, genPow (17 * (sigmaDefault[r]).toNat) =
      refDefault[(genPow (17 * r.val + 1)).toNat] ^^^ kappa defaultConfig 0 := by decide +kernel

/-- Settles O10: the constraints do not read `TAB_K[16]`, so they are the ties of the default tables. -/
theorem defaultConstantsAgree : Obligations.DefaultConstantsAgree := by
  intro s h
  refine ⟨refEntry_bijective_of_default h, ?_⟩
  simp only [tabKAt_zero, refEntry_of_default h, tabS_of_default h, tabK_of_default h, sigma_of_default h,
    kappa_of_default h]
  exact ⟨tabKDefault_zero, tabSDefault_eq, tabKDefault_eq, kappa_default_eq, genPow_sigmaDefault_eq⟩

/-! ### The state after reset (R30) -/

/-- Settles O9: no table lists a cell, and the constants are the default configuration's. -/
theorem resetStateValues : Obligations.ResetStateValues := by
  refine ⟨fun a _ => ⟨read_nil, read_nil, read_nil, read_nil⟩, rfl, rfl, rfl, rfl, rfl, ?tv, ?err, rfl, rfl, ?constants⟩
  case tv => decide
  case err => decide
  case constants => decide +kernel

end Sys2Proof.Machine

/-! PROOFS of the family 20_memory.md: which command writes which state (R12, R41), and that the two constructors, which
read no table that the other one writes, may run in either order (R54). -/

namespace Sys2Proof.Machine

variable {s t u : State} {i : Instr} {m : Memory}

/-! ### Which command writes which state (R12, R41) -/

/-- A refusal is the end of a command that has touched nothing, so both ends of a command have one form. -/
theorem exec_touches (h : exec i s = .next t) : ∃ u code r, Touches i s u ∧ t = u.finish code r := by
  obtain ⟨e, -, ht⟩ | ⟨u, r, hu, ht⟩ := exec_ends h
  · exact ⟨s, errCode e, 0, .none i s, ht⟩
  · exact ⟨u, okCode, r, hu, ht⟩

/-- `LOG`, `EXP` and `TV` are what they were before every command but BLDTAB. -/
theorem Touches.tables_tv (h : Touches i s u) (hi : i ≠ .bldtab) : u.log = s.log ∧ u.exp = s.exp ∧ u.tv = s.tv := by
  obtain ⟨hlog, hexp, -⟩ := h.tables hi
  exact ⟨hlog, hexp, h.tv_eq hi⟩

/-- Settles O17: the frame of the command, clause by clause; the end it has in common with every command writes none of
these fields. -/
theorem onlyTheNamedCommandWrites : Obligations.OnlyTheNamedCommandWrites := by
  intro i s t h
  obtain ⟨u, code, r, hu, rfl⟩ := exec_touches h
  rw [finish_tv]
  exact ⟨hu.cfg, hu.input, hu.tables_tv, hu.x, fun hi => ⟨hu.z hi, hu.canda hi⟩, hu.candb, hu.miscnt, hu.noDiag⟩

/-! ### The two constructors (R54) -/

/-- CDLOG with `TV = 1`, when its loop runs to its end. -/
theorem exec_cdlog_of_ok (htv : s.tv = true) (hm : constructDecomposed s.cfg s.exp s.log s.candb = .ok m) :
    exec .cdlog s = .next (({ s with candb := m } : State).complete 0) := by
  simp only [exec, execCdlog, htv, if_true, hm]

/-- The walk of CDIR and the table of CDLOG go to different fields, and both commands have the same end. -/
theorem putDirect_putCandb_comm (s : State) (w : DirectWalk) (m : Memory) (r : Word) :
    ({ (s.putDirect w).complete r with candb := m } : State).complete r =
      ((({ s with candb := m } : State).complete r).putDirect w).complete r := rfl

/-- Settles O45: neither constructor reads what the other writes, so each computes the same table in both orders. -/
theorem constructorsCommute : Obligations.ConstructorsCommute := by
  intro s hs htv
  obtain ⟨m, hm, -⟩ := constructDecomposed_ok hs.cfgWf (hs.tablesBuilt htv) s.candb
  refine ⟨(s.putDirect (constructDirect s.cfg s.canda)).complete 0, ({ s with candb := m } : State).complete 0, _, rfl,
    exec_cdlog_of_ok ?tvKept hm, exec_cdlog_of_ok htv hm, ?sameState⟩
  case tvKept => exact (complete_tv _ _).trans htv
  case sameState => exact congrArg Host.Outcome.next (putDirect_putCandb_comm s _ m 0).symm

end Sys2Proof.Machine

/-! PROOFS of the family 30_encoding.md: which words the decoder refuses (spec/30_encoding.md rules R61 and R65), and
that the first check that fails decides the code of any word (R64, spec/60_exceptions.md rule R166). -/

namespace Sys2Proof

variable {w : Word}

/-! ### The opcode map (R63) -/

/-- The number of an opcode, from the first column of R63. -/
def Opcode.number : Opcode → Nat
  | .nop => 0x00
  | .bldtab => 0x01
  | .mulx => 0x02
  | .gfmul => 0x03
  | .cdir => 0x04
  | .cdlog => 0x05
  | .kappa => 0x06
  | .check => 0x07
  | .rotd => 0x08
  | .rotdx => 0x09
  | .rdt => 0x0A
  | .rdr => 0x0B

theorem ofByte_eq_none_iff : ∀ o : Byte, Opcode.ofByte o = none ↔ 0x0B < o.toNat := by decide +kernel

theorem toNat_of_mem_ofByte : ∀ o : Byte, ∀ op ∈ Opcode.ofByte o, o.toNat = op.number := by decide +kernel

/-! ### The must-be-zero fields (R61) -/

theorem packFields_eq_zero_iff (o c b a : Byte) : packFields o c b a = 0#32 ↔ o = 0 ∧ c = 0 ∧ b = 0 ∧ a = 0 := by
  constructor
  · intro h
    refine ⟨?_, ?_, ?_, ?_⟩
    · rw [← fieldOpc_packFields o c b a, h]; rfl
    · rw [← fieldC_packFields o c b a, h]; rfl
    · rw [← fieldB_packFields o c b a, h]; rfl
    · rw [← fieldA_packFields o c b a, h]; rfl
  · rintro ⟨rfl, rfl, rfl, rfl⟩; rfl

/-- The must-be-zero fields of a format are zero, from the table of R61. -/
def Format.fieldsZero (w : Word) : Format → Prop
  | .n => fieldC w = 0 ∧ fieldB w = 0 ∧ fieldA w = 0
  | .a => fieldC w = 0 ∧ fieldB w = 0
  | .ab => fieldC w = 0
  | .c => fieldB w = 0 ∧ fieldA w = 0
  | .ac => fieldB w = 0

/-- A format's mask covers each field wholly or not at all. -/
theorem and_mbz_eq_zero_iff (f : Format) : w &&& f.mbz = 0 ↔ f.fieldsZero w := by
  have hones : ∀ x : Byte, x &&& 255#8 = x := fun _ => BitVec.and_allOnes
  conv_lhs => rw [← packFields_fields w, mbz_packFields]
  cases f <;> simp [packFields_and, packFields_eq_zero_iff, hones, Format.fieldsZero]

end Sys2Proof

namespace Sys2Proof.Machine

variable {s t : State} {w : Word} {op : Opcode} {i : Instr} {e : Err} {c a : Byte} {sp : Space}

/-- The fields that `reservedFieldSet` names for an opcode are the must-be-zero fields of its format. -/
theorem reservedFieldSet_iff (hop : Opcode.ofByte (fieldOpc w) = some op) :
    reservedFieldSet w ↔ w &&& op.format.mbz ≠ 0 := by
  have ho := toNat_of_mem_ofByte _ op hop
  rw [Ne, and_mbz_eq_zero_iff]
  cases op <;> simp [reservedFieldSet, ho, Opcode.number, Opcode.format, Format.fieldsZero] <;> tauto

/-- Only a legal opcode has a format whose fields could be reserved. -/
theorem opc_le_of_reservedFieldSet (h : reservedFieldSet w) : (fieldOpc w).toNat ≤ 0x0B := by
  simp only [reservedFieldSet] at h
  omega

/-! ### The decoder's refusals (R64 steps (1) and (2)) -/

theorem decode_eq_error_iff :
    decode w = .error e ↔ 0x0B < (fieldOpc w).toNat ∧ e = .illop ∨ reservedFieldSet w ∧ e = .rsvd := by
  unfold decode
  cases hop : Opcode.ofByte (fieldOpc w) with
  | none =>
    have hopc := (ofByte_eq_none_iff _).1 hop
    have hres : ¬ reservedFieldSet w := fun h => absurd (opc_le_of_reservedFieldSet h) (not_le.2 hopc)
    simp [hopc, hres, eq_comm]
  | some op =>
    have hopc : ¬ 0x0B < (fieldOpc w).toNat := by simp [← ofByte_eq_none_iff, hop]
    by_cases hz : w &&& op.format.mbz = 0#32 <;> simp [reservedFieldSet_iff hop, hopc, hz, eq_comm]

theorem exists_decode_eq_ok_iff : (∃ i, decode w = .ok i) ↔ ∀ e, decode w ≠ .error e := by
  cases decode w <;> simp

/-- Settles O4: the decoder's two refusals, and a command when there is neither. -/
theorem decoderVerdict : Obligations.DecoderVerdict := by
  intro w
  refine ⟨by simp [decode_eq_error_iff], by simp [decode_eq_error_iff], ?_⟩
  rw [exists_decode_eq_ok_iff]
  constructor
  · intro h
    exact ⟨not_lt.1 fun hopc => h .illop (decode_eq_error_iff.2 (.inl ⟨hopc, rfl⟩)),
      fun hres => h .rsvd (decode_eq_error_iff.2 (.inr ⟨hres, rfl⟩))⟩
  · rintro ⟨hopc, hres⟩ e he
    obtain ⟨hillop, -⟩ | ⟨hrsvd, -⟩ := decode_eq_error_iff.1 he
    · exact absurd hillop (not_lt.2 hopc)
    · exact hres hrsvd

/-! ### The code a decoded command ends with (R64 steps (3) to (6)) -/

/-- The code of the first of the checks (3) to (6) that fails for a command, written from its operands; 0 where none
fails. -/
def admissionCode (i : Instr) (tv : Bool) : Code :=
  match i with
  | .cdlog => if tv = false then 5 else 0
  | .check c _ => if 2 < c.toNat then 3 else 0
  | .rotd c => if 2 < c.toNat then 3 else 0
  | .rotdx c _ => if 2 < c.toNat then 3 else 0
  | .rdt c a =>
    if 8 < c.toNat then 3
    else if cellsOfSpace c ≤ a.toNat then 4
    else if (c = 3 ∨ c = 4) ∧ tv = false then 5
    else if c = 3 ∧ a = 0 then 6
    else 0
  | .rdr r => if 4 < r.toNat then 3 else 0
  | _ => 0

/-- The verdict of an accepted word is its command's: the opcode number selects the checks that apply. -/
theorem verdict_of_decode_ok (h : decode w = .ok i) (tv : Bool) : verdict w tv = admissionCode i tv := by
  obtain ⟨-, -, hok⟩ := decoderVerdict w
  obtain ⟨hopc, hres⟩ := hok.1 ⟨i, h⟩
  obtain ⟨op, hop, -, rfl⟩ := decode_eq_ok_iff.1 h
  have ho := toNat_of_mem_ofByte _ op hop
  unfold verdict
  rw [if_neg (not_lt.2 hopc), if_neg hres]
  cases op <;> simp [ho, Opcode.number, Opcode.operands, illegalSelector, admissionCode]

theorem verdict_of_decode_error (h : decode w = .error e) (tv : Bool) : verdict w tv = errCode e := by
  unfold verdict
  obtain ⟨hopc, rfl⟩ | ⟨hres, rfl⟩ := decode_eq_error_iff.1 h
  · rw [if_pos hopc]; rfl
  · rw [if_neg (not_lt.2 (opc_le_of_reservedFieldSet hres)), if_pos hres]; rfl

/-! The machine's own checks, in the terms of the operands' values. -/

theorem permSpaceOf_eq_none_iff : permSpaceOf c = none ↔ 2 < c.toNat := by
  simp [← Option.not_isSome_iff_eq_none, permSpaceOf_isSome]

theorem spaceOf_eq_none_iff : spaceOf c = none ↔ 8 < c.toNat := by
  simp [← Option.not_isSome_iff_eq_none, spaceOf_isSome]

theorem regOf_eq_none_iff : regOf c = none ↔ 4 < c.toNat := by
  simp [← Option.not_isSome_iff_eq_none, regOf_isSome]

theorem spaceNeedsTables_iff (hc : spaceOf c = some sp) : spaceNeedsTables sp = true ↔ c = 3 ∨ c = 4 := by
  have h := spaceNeedsTables_spaceOf c
  rw [hc] at h
  simpa [BitVec.toNat_eq] using congrArg (· = true) h

/-- The checks of R146 find, in the order of R64, what the cell's space and index say. -/
theorem admissionCode_rdt (hc : spaceOf c = some sp) (s : State) (a : Byte) :
    admissionCode (.rdt c a) s.tv = (rdtRefusal s sp a.toNat).elim okCode errCode := by
  have hle : ¬ 8 < c.toNat := mt spaceOf_eq_none_iff.2 (by simp [hc])
  have hlen : cellsOfSpace c = spaceLen sp := by simp [← spaceLen_spaceOf, hc]
  have htables : (c = 3 ∨ c = 4) ∧ s.tv = false ↔ (spaceNeedsTables sp && !s.tv) = true := by
    simp [spaceNeedsTables_iff hc]
  have hundef : c = 3 ∧ a = 0 ↔ sp = .log ∧ a.toNat = 0 := by
    rw [← spaceOf_eq_log, hc, Option.some_inj, BitVec.toNat_eq]
    rfl
  simp only [admissionCode, rdtRefusal, if_neg hle, hlen, htables, hundef]
  split_ifs <;> rfl

theorem execRdt_err (h : execRdt c a s = .next t) : t.err = admissionCode (.rdt c a) s.tv := by
  unfold execRdt at h
  cases hc : spaceOf c with
  | none =>
    simp only [hc] at h
    cases h
    exact (refuse_err _ _).trans (if_pos (spaceOf_eq_none_iff.1 hc)).symm
  | some sp =>
    rw [admissionCode_rdt hc]
    cases hr : rdtRefusal s sp a.toNat with
    | some e =>
      simp only [hc, hr] at h
      cases h
      exact refuse_err s e
    | none =>
      simp only [hc, hr] at h
      split at h
      · cases h; exact complete_err _ _
      · cases h

theorem execCdlog_err (h : execCdlog s = .next t) : t.err = admissionCode .cdlog s.tv := by
  unfold execCdlog at h
  cases htv : s.tv with
  | true =>
    rw [if_pos htv] at h
    split at h
    · cases h; exact complete_err _ _
    · cases h
  | false =>
    rw [if_neg (by simp [htv])] at h
    cases h
    exact refuse_err s .notab

/-- Every command that ends, ends with the code of its checks: the only code of its own is the one it is refused with. -/
theorem exec_err (h : exec i s = .next t) : t.err = admissionCode i s.tv := by
  cases i with
  | nop | bldtab | mulx | gfmul | cdir | kappa => cases h; exact complete_err _ _
  | cdlog => exact execCdlog_err h
  | rdt c a => exact execRdt_err h
  | check c | rotd c | rotdx c =>
    simp only [exec, execCheck, execRotd, execRotdx] at h
    cases hc : permSpaceOf c with
    | none =>
      simp only [hc] at h
      cases h
      exact (refuse_err _ _).trans (if_pos (permSpaceOf_eq_none_iff.1 hc)).symm
    | some sp =>
      simp only [hc] at h
      cases h
      exact (complete_err _ _).trans (if_neg (mt permSpaceOf_eq_none_iff.2 (by simp [hc]))).symm
  | rdr r =>
    simp only [exec, execRdr] at h
    cases hr : regOf r with
    | none =>
      simp only [hr] at h
      cases h
      exact (refuse_err _ _).trans (if_pos (regOf_eq_none_iff.1 hr)).symm
    | some reg =>
      simp only [hr] at h
      cases h
      exact (complete_err _ _).trans (if_neg (mt regOf_eq_none_iff.2 (by simp [hr]))).symm

/-! ### The whole of R64 -/

/-- A command that ends with a code has been refused, so its end is that of R162. -/
theorem eq_errEnd_of_err_ne_zero (h : exec i s = .next t) (ht : t.err ≠ 0) : t = errEnd s t.err := by
  obtain ⟨e, -, rfl⟩ | ⟨u, r, -, rfl⟩ := exec_ends h
  · rw [refuse_err]; rfl
  · exact absurd (complete_err u r) ht

/-- Settles O21: the decoder makes the checks (1) and (2); a decoded command ends, because the invariant holds, and with
the code of the checks (3) to (6). -/
theorem firstFailingCheckDecidesTheCode : Obligations.FirstFailingCheckDecidesTheCode := by
  intro s w rest hs hin
  rw [step_cmd hin]
  cases hdec : decode w with
  | error e =>
    rw [verdict_of_decode_error hdec, runWord_of_decode_error hdec]
    exact ⟨fun _ => rfl, fun h0 => absurd h0 (errCode_ne_ok e)⟩
  | ok i =>
    obtain ⟨t, ht⟩ := exec_next (hs.withInput rest) i
    have hcode : t.err = verdict w s.tv := (exec_err ht).trans (verdict_of_decode_ok hdec s.tv).symm
    rw [runWord_of_decode_ok hdec, ← hcode]
    exact ⟨fun hne => ht.trans (congrArg _ (eq_errEnd_of_err_ne_zero ht hne)), fun h0 => ⟨i, t, rfl, ht, ht, h0⟩⟩

end Sys2Proof.Machine

/-! PROOFS of the family 40_gf28_tables.md: what BLDTAB leaves (spec/40_gf28_tables.md rules R80 to R84), and that RDT reads
it back (spec/46_access_and_system.md rule R146). -/

namespace Sys2Proof.Machine

variable {s : State} {w : Word} {rest : List HostInput} {op : Opcode} {c a v : Byte} {sp : Space}
  {exp log exp' log' : Memory} {lw lw' : LfsrWalk} {i n : Nat}

/-! ### The end of a command, and a word with a legal opcode -/

/-- The machine's end of a completed command is the one the statements write out (R8, R26). -/
theorem complete_eq_okEnd (s : State) (r : Word) : s.complete r = okEnd s r := rfl

/-- The machine's refusal is the one the statements write out (R162). -/
theorem refuse_eq_errEnd (s : State) (e : Err) : s.refuse e = errEnd s (errCode e) := rfl

/-- A word with a legal opcode runs its command when its must-be-zero fields, named by `P`, are zero, and is refused with
`ERR_RSVD` otherwise (R61, R64 step (2)). -/
theorem step_of_legalOpcode {P : Prop} [Decidable P] (hin : s.input = .cmd w :: rest)
    (hop : Opcode.ofByte (fieldOpc w) = some op) (hP : op.format.fieldsZero w ↔ P) :
    step s = if P then exec (op.operands w) { s with input := rest } else .next (errEnd { s with input := rest } 2) := by
  rw [← and_mbz_eq_zero_iff] at hP
  rw [step_cmd hin]
  split
  · rename_i hp
    exact runWord_of_decode_ok (decode_eq_ok_iff.2 ⟨op, hop, hP.2 hp, rfl⟩)
  · rename_i hp
    have hdec : decode w = .error .rsvd :=
      decode_eq_error_iff.2 (.inr ⟨(reservedFieldSet_iff hop).2 (mt hP.1 hp), rfl⟩)
    rw [runWord_of_decode_error hdec, refuse_eq_errEnd, errCode]

/-! ### The tables after the 256 iterations of R80 -/

theorem genPow_256 : genPow 256 = 0x02 := by
  rw [genPow_succ, genPow_255]
  decide

theorem exponent_bounds {e : Byte} (he : e ≠ 0) : 1 ≤ e.toNat ∧ e.toNat ≤ 255 :=
  ⟨Nat.pos_of_ne_zero fun h0 => he (BitVec.eq_of_toNat_eq h0), Nat.le_of_lt_succ e.isLt⟩

/-- Every non-zero byte is a power of the generator whose exponent is a non-zero byte (R81). -/
theorem exists_byte_genPow {x : Byte} (hx : x ≠ 0) : ∃ e : Byte, e ≠ 0 ∧ genPow e.toNat = x := by
  obtain ⟨n, h1, h255, rfl⟩ := exists_genPow hx
  have hn : (BitVec.ofNat 8 n).toNat = n := Nat.mod_eq_of_lt (by omega)
  refine ⟨BitVec.ofNat 8 n, fun h0 => ?_, by rw [hn]⟩
  have : n = 0 := hn.symm.trans (congrArg BitVec.toNat h0)
  omega

/-- The closed form of `LOG` (R81) with the exponent as the byte stored. -/
theorem read_log_genPow
    (hlog : ∀ e, 1 ≤ e → e ≤ 255 → Memory.read .log log (genPow e).toNat = some (BitVec.ofNat 8 e))
    {e : Byte} (he : e ≠ 0) : Memory.read .log log (genPow e.toNat).toNat = some e := by
  obtain ⟨h1, h255⟩ := exponent_bounds he
  rw [hlog _ h1 h255, BitVec.ofNat_toNat, BitVec.setWidth_eq]

theorem WalkAt.exp_eq_genPow (h : WalkAt exp log 256 lw) (hi : i < 256) :
    Memory.read .exp lw.exp i = some (genPow i) := by
  rw [h.exp, if_pos hi]

theorem WalkAt.log_eq_exponent (h : WalkAt exp log 256 lw) (h1 : 1 ≤ n) (h255 : n ≤ 255) :
    Memory.read .log lw.log (genPow n).toNat = some (BitVec.ofNat 8 n) :=
  h.log n (by omega) (.inl (by omega))

theorem WalkAt.log_eq_byte (h : WalkAt exp log 256 lw) {e : Byte} (he : e ≠ 0) :
    Memory.read .log lw.log (genPow e.toNat).toNat = some e :=
  read_log_genPow (fun _ => h.log_eq_exponent) he

/-- A whole walk fixes every cell but `LOG[0]`, which it keeps: from tables in canonical form with the same `LOG[0]` it
ends in the same data. -/
theorem WalkAt.unique (h : WalkAt exp log 256 lw) (h' : WalkAt exp' log' 256 lw')
    (hexp : Memory.wf .exp exp) (hexp' : Memory.wf .exp exp') (hlog : Memory.wf .log log) (hlog' : Memory.wf .log log')
    (hzero : Memory.read .log log 0 = Memory.read .log log' 0) : lw = lw' := by
  have hx : lw.x = lw'.x := h.x.trans h'.x.symm
  have hexpEq : lw.exp = lw'.exp := eq_of_read_eq (h.expWf hexp) (h'.expWf hexp') fun n hn => by
    rw [h.exp_eq_genPow hn, h'.exp_eq_genPow hn]
  have hlogEq : lw.log = lw'.log := eq_of_read_eq (h.logWf hlog) (h'.logWf hlog') fun n hn => by
    obtain ⟨x, rfl⟩ : ∃ x : Byte, x.toNat = n := ⟨BitVec.ofNat 8 n, Nat.mod_eq_of_lt hn⟩
    by_cases hx0 : x = 0
    · rw [hx0]
      exact h.logZero.trans (hzero.trans h'.logZero.symm)
    · obtain ⟨e, he, rfl⟩ := exists_byte_genPow hx0
      rw [h.log_eq_byte he, h'.log_eq_byte he]
  exact congr (congrArg₂ LfsrWalk.mk hx hexpEq) hlogEq

/-! ### BLDTAB -/

/-- The state a BLDTAB leaves when its walk has left `lw`: `X`, `RES`, `STATUS` and the response are the same for
every walk (R80). -/
def bldtabEnd (s : State) (lw : LfsrWalk) : State :=
  { s with exp := lw.exp, log := lw.log, x := 0x02, res := 0x00000000, status := 0x01, rsp := s.rsp ++ [⟨0, 0⟩] }

/-- The cursor ends at the 256th power of the generator, and `STATUS` at `TV = 1` with `ERR = 0`. -/
theorem WalkAt.complete_putWalk (h : WalkAt exp log 256 lw) (s : State) :
    (s.putWalk lw).setTv.complete 0 = bldtabEnd s lw := by
  have hx : lw.x = 0x02 := h.x.trans genPow_256
  have hstatus : packStatus okCode (s.putWalk lw).setTv.tv = 0x01 := by rw [setTv_tv]; decide
  rw [bldtabEnd, ← hx, ← hstatus]
  rfl

/-- BLDTAB completes in every state, after a whole walk over its tables. -/
theorem exec_bldtab_walk (s : State) : ∃ lw, WalkAt s.exp s.log 256 lw ∧ exec .bldtab s = .next (bldtabEnd s lw) :=
  have h := buildTables_walkAt s.exp s.log
  ⟨_, h, congrArg Host.Outcome.next (h.complete_putWalk s)⟩

/-- Settles O32: the walk's law gives the cells, and the word has no operand field. -/
theorem bldtabResult : Obligations.BldtabResult := by
  refine ⟨fun s => ?command, fun s rest a b c hin => ?word⟩
  case command =>
    obtain ⟨lw, h, hexec⟩ := exec_bldtab_walk s
    exact ⟨lw.exp, lw.log, hexec, fun _ => h.exp_eq_genPow, fun _ => h.log_eq_exponent, h.logZero⟩
  case word =>
    refine step_of_legalOpcode (op := .bldtab) hin (by rw [fieldOpc_packFields]; rfl) ?_
    simp only [Opcode.format, Format.fieldsZero, fieldA_packFields, fieldB_packFields, fieldC_packFields]
    tauto

/-- Settles O34: `EXP[e]` is the `e`-th power and `LOG` of that power is `e`, for `e` in 1..255, and these powers are all the
non-zero bytes. -/
theorem logAndExpAreInverse : Obligations.LogAndExpAreInverse := by
  intro s
  obtain ⟨lw, h, hexec⟩ := exec_bldtab_walk s
  refine ⟨_, hexec, fun x hx => ?logThenExp, fun i hi => ?expThenLog, ?expZero, ?logOne⟩
  case logThenExp =>
    obtain ⟨e, he, rfl⟩ := exists_byte_genPow hx
    exact ⟨e, he, h.log_eq_byte he, h.exp_eq_genPow e.isLt⟩
  case expThenLog => exact ⟨genPow i.toNat, genPow_ne_zero _, h.exp_eq_genPow i.isLt, h.log_eq_byte hi⟩
  case expZero => exact h.exp_eq_genPow (i := 0) (by decide)
  case logOne =>
    have hone : Memory.read .log lw.log (genPow 255).toNat = some 255 := h.log_eq_exponent (by decide) le_rfl
    rwa [genPow_255] at hone

/-- Settles O35: the invariant gives the canonical form, in which the second walk leaves the same tables as the first. -/
theorem bldtabRepeatsToTheSameState : Obligations.BldtabRepeatsToTheSameState := by
  intro s hs
  obtain ⟨lw, h, hexec⟩ := exec_bldtab_walk s
  obtain ⟨lw', h', hexec'⟩ := exec_bldtab_walk (bldtabEnd s lw)
  obtain rfl : lw' = lw := h'.unique h (h.expWf hs.expWf) hs.expWf (h.logWf hs.logWf) hs.logWf h.logZero
  exact ⟨_, hexec, hexec'⟩

/-! ### RDT of built tables -/

/-- An RDT that no check of R146 refuses, of a cell that holds `v`. -/
theorem exec_rdt_of_spaceEntry (hsp : spaceOf c = some sp) (hchecks : rdtRefusal s sp a.toNat = none)
    (hv : s.spaceEntry sp a.toNat = some v) : exec (.rdt c a) s = .next (okEnd s (v.setWidth 32)) := by
  rw [← complete_eq_okEnd]
  simp only [exec, execRdt, hsp, hchecks, hv, zext32]

/-- Settles O55: with built tables the checks pass for every cell but `LOG[0]`, which is no power's. -/
theorem rdtReadsBuiltTables : Obligations.RdtReadsBuiltTables := by
  intro s hs htv
  have hbuilt := hs.tablesBuilt htv
  refine ⟨fun i => ?exp, fun e he => ?log⟩
  case exp =>
    exact exec_rdt_of_spaceEntry (sp := .exp) rfl
      (rdtRefusal_eq_none_iff.2 ⟨i.isLt, fun _ => htv, by simp⟩)
      ((if_pos i.isLt).trans (hbuilt.expEntry _ i.isLt))
  case log =>
    exact exec_rdt_of_spaceEntry (sp := .log) rfl
      (rdtRefusal_eq_none_iff.2 ⟨byte_lt_N _, fun _ => htv, fun h0 => genPow_toNat_ne_zero _ h0.2⟩)
      ((if_pos (byte_lt_N _)).trans (read_log_genPow hbuilt.logEntry he))

end Sys2Proof.Machine

/-! PROOFS of the family 41_gf28_mult.md: MULX and GFMUL as commands (spec/41_gf28_mult.md rules R91 and R93), and that
`gfmul` is the product of the field of R92, from which its laws follow (R94). -/

namespace Sys2Proof.Machine

open Polynomial

variable {a b : Byte}

/-! ### The commands (R91, R93) -/

/-- The term of bit `n` of `b` in the product with `a` (R93). -/
def gfmulTerm (a b : Byte) (n : Nat) : Byte := if b.getLsbD n then mulx^[n] a else 0x00

theorem gfmulStep_eq (a b r : Byte) (k : Nat) :
    gfmulStep b (r, mulx^[k] a) k = (r ^^^ gfmulTerm a b k, mulx^[k + 1] a) := by
  rw [gfmulStep, gfmulTerm, Function.iterate_succ_apply']
  split <;> simp

/-- The loop of R93 from bit `k` on adds the terms of its bits to what it has so far. -/
theorem foldl_gfmulStep (a b r : Byte) (k n : Nat) :
    (List.range' k n).foldl (gfmulStep b) (r, mulx^[k] a) =
      (r ^^^ (List.range' k n).foldr (fun m p => gfmulTerm a b m ^^^ p) 0x00, mulx^[k + n] a) := by
  induction n generalizing k r with
  | zero => simp
  | succ n ih =>
    rw [List.range'_succ, List.foldl_cons, gfmulStep_eq, ih, List.foldr_cons, BitVec.xor_assoc,
      Nat.add_right_comm k 1 n, Nat.add_assoc]

theorem gfmul_eq_foldr (a b : Byte) :
    gfmul a b = (List.range 8).foldr (fun n p => gfmulTerm a b n ^^^ p) 0x00 := by
  have hloop := congrArg Prod.fst (foldl_gfmulStep a b 0x00 0 8)
  rw [← List.range_eq_range'] at hloop
  exact hloop.trans BitVec.zero_xor

/-- Settles O26: `mulx` is the formula, and the format A leaves `A` free. -/
theorem mulxResult : Obligations.MulxResult := by
  refine ⟨fun s a => rfl, fun s rest a b c hin => ?_⟩
  rw [step_of_legalOpcode (op := .mulx) (P := b = 0 ∧ c = 0) hin (by rw [fieldOpc_packFields]; rfl)
    (by simp only [Opcode.format, Format.fieldsZero, fieldB_packFields, fieldC_packFields, and_comm])]
  simp only [Opcode.operands, fieldA_packFields]
  split <;> rfl

/-- Settles O28: the loop adds the terms of the bits, and the format AB leaves `A` and `B` free. -/
theorem gfmulResult : Obligations.GfmulResult := by
  have command : ∀ (s : State) (a b : Byte), exec (.gfmul a b) s = .next (okEnd s
      (((List.range 8).foldr (fun n p => gfmulTerm a b n ^^^ p) 0x00).setWidth 32)) := fun s a b => by
    rw [← gfmul_eq_foldr]
    rfl
  refine ⟨command, fun s rest a b c hin => ?_⟩
  rw [step_of_legalOpcode (op := .gfmul) (P := c = 0) hin (by rw [fieldOpc_packFields]; rfl)
    (by simp only [Opcode.format, Format.fieldsZero, fieldC_packFields])]
  simp only [Opcode.operands, fieldA_packFields, fieldB_packFields, command]
  split <;> rfl

/-! ### Bytes as polynomials (R92) -/

theorem bytePoly_coeff (a : Byte) (n : Nat) : (bytePoly a).coeff n = if a.getLsbD n then 1 else 0 := by
  have hterm : ∀ m, (if a.getLsbD m then (X : (ZMod 2)[X]) ^ m else 0).coeff n =
      if n = m then (if a.getLsbD n then 1 else 0) else 0 := fun m => by
    split_ifs <;> simp_all [coeff_X_pow]
  rw [bytePoly, finsetSum_coeff, Finset.sum_congr rfl fun m _ => hterm m, Finset.sum_ite_eq]
  by_cases hn : n < 8
  · rw [if_pos (Finset.mem_range.2 hn)]
  · rw [if_neg (mt Finset.mem_range.1 hn), BitVec.getLsbD_of_ge a n (not_lt.1 hn)]
    simp

theorem bytePoly_injective : Function.Injective bytePoly := fun a b h =>
  BitVec.eq_of_getLsbD_eq fun n _ => by
    have hn := congrArg (coeff · n) h
    simp only [bytePoly_coeff] at hn
    cases ha : a.getLsbD n <;> cases hb : b.getLsbD n <;> simp [ha, hb] at hn ⊢

/-- Addition is XOR (R92). -/
theorem bytePoly_xor (a b : Byte) : bytePoly (a ^^^ b) = bytePoly a + bytePoly b := by
  ext n
  simp only [coeff_add, bytePoly_coeff, BitVec.getLsbD_xor]
  cases a.getLsbD n <;> cases b.getLsbD n <;> decide

theorem bytePoly_zero : bytePoly 0#8 = 0 := by simp [bytePoly]

theorem bytePoly_one : bytePoly 1#8 = 1 := by simp [bytePoly]

theorem bytePoly_feedback : bytePoly FEEDBACK = 1 + X ^ 2 + X ^ 3 + X ^ 4 := by
  simp [bytePoly, FEEDBACK, Finset.sum_range_succ]

/-- The left shift multiplies by `X`, but for the bit shifted out. -/
theorem X_mul_bytePoly (a : Byte) :
    X * bytePoly a = bytePoly (a <<< 1) + if a.getLsbD 7 then X ^ 8 else 0 := by
  ext n
  rw [coeff_add, bytePoly_coeff]
  cases n with
  | zero => simp [apply_ite (coeff · 0)]
  | succ n =>
    rw [coeff_X_mul, bytePoly_coeff, BitVec.getLsbD_shiftLeft]
    obtain hlt | rfl | hgt := lt_trichotomy n 7
    · simp [apply_ite (coeff · (n + 1)), coeff_X_pow, Nat.succ_lt_succ hlt, hlt.ne]
    · simp [apply_ite (coeff · 8)]
    · simp [apply_ite (coeff · (n + 1)), coeff_X_pow, BitVec.getLsbD_of_ge a n hgt, hgt.ne']

theorem degree_fieldPoly : fieldPoly.degree = 8 := by
  unfold fieldPoly
  compute_degree!

theorem degree_bytePoly_lt (a : Byte) : (bytePoly a).degree < 8 :=
  (degree_lt_iff_coeff_zero _ 8).2 fun n hn => by simp [bytePoly_coeff, BitVec.getLsbD_of_ge a n hn]

/-! ### Bytes as elements of the field -/

/-- The element of GF(2)[x]/(m) that a byte stands for (R92). -/
noncomputable def fieldElem (a : Byte) : AdjoinRoot fieldPoly := AdjoinRoot.mk fieldPoly (bytePoly a)

/-- Bytes are the remainders modulo `m`, each element's once. -/
theorem fieldElem_injective : Function.Injective fieldElem := fun a b h => by
  have hdvd : fieldPoly ∣ bytePoly a - bytePoly b := AdjoinRoot.mk_eq_mk.1 h
  have hdeg : (bytePoly a - bytePoly b).degree < fieldPoly.degree := by
    rw [degree_fieldPoly]
    exact (degree_sub_le _ _).trans_lt (max_lt (degree_bytePoly_lt a) (degree_bytePoly_lt b))
  exact bytePoly_injective (sub_eq_zero.1 (eq_zero_of_dvd_of_degree_lt hdvd hdeg))

@[simp] theorem fieldElem_xor (a b : Byte) : fieldElem (a ^^^ b) = fieldElem a + fieldElem b := by
  rw [fieldElem, bytePoly_xor, map_add]
  rfl

@[simp] theorem fieldElem_zero : fieldElem 0#8 = 0 := by rw [fieldElem, bytePoly_zero, map_zero]

@[simp] theorem fieldElem_one : fieldElem 1#8 = 1 := by rw [fieldElem, bytePoly_one, map_one]

/-- The bit shifted out stands for the feedback: `x ^ 8 = x ^ 4 + x ^ 3 + x ^ 2 + 1` (R92). -/
theorem root_pow_eight : AdjoinRoot.root fieldPoly ^ 8 = fieldElem FEEDBACK := by
  rw [← AdjoinRoot.mk_X, ← map_pow, fieldElem, AdjoinRoot.mk_eq_mk]
  exact dvd_of_eq (by rw [bytePoly_feedback, CharTwo.sub_eq_add, fieldPoly]; ring)

/-- The LFSR step multiplies by the generator (R92). -/
@[simp] theorem fieldElem_mulx (a : Byte) : fieldElem (mulx a) = AdjoinRoot.root fieldPoly * fieldElem a := by
  have hfeedback : fieldElem (if a.getLsbD 7 then FEEDBACK else 0x00) =
      AdjoinRoot.mk fieldPoly (if a.getLsbD 7 then X ^ 8 else 0) := by
    split
    · rw [← root_pow_eight, map_pow, AdjoinRoot.mk_X]
    · exact fieldElem_zero.trans (map_zero _).symm
  calc fieldElem (mulx a)
      = fieldElem (a <<< 1) + fieldElem (if a.getLsbD 7 then FEEDBACK else 0x00) := fieldElem_xor _ _
    _ = AdjoinRoot.mk fieldPoly (bytePoly (a <<< 1) + if a.getLsbD 7 then X ^ 8 else 0) := by
        rw [hfeedback, map_add, fieldElem]
    _ = AdjoinRoot.root fieldPoly * fieldElem a := by rw [← X_mul_bytePoly, map_mul, AdjoinRoot.mk_X, fieldElem]

@[simp] theorem fieldElem_iterate_mulx (a : Byte) (n : Nat) :
    fieldElem (mulx^[n] a) = AdjoinRoot.root fieldPoly ^ n * fieldElem a := by
  induction n with
  | zero => simp
  | succ n ih => rw [Function.iterate_succ_apply', fieldElem_mulx, ih, pow_succ', mul_assoc]

theorem fieldElem_genPow (n : Nat) : fieldElem (genPow n) = AdjoinRoot.root fieldPoly ^ n := by
  rw [genPow, fieldElem_iterate_mulx, show GEN_START = 1#8 from rfl, fieldElem_one, mul_one]

theorem fieldElem_eq_sum (a : Byte) :
    fieldElem a = ∑ n ∈ Finset.range 8, AdjoinRoot.mk fieldPoly (if a.getLsbD n then X ^ n else 0) := map_sum _ _ _

theorem fieldElem_foldr_xor (f : Nat → Byte) (l : List Nat) :
    fieldElem (l.foldr (fun n p => f n ^^^ p) 0x00) = (l.map fun n => fieldElem (f n)).sum := by
  induction l with
  | nil => exact fieldElem_zero
  | cons n l ih => rw [List.foldr_cons, fieldElem_xor, ih, List.map_cons, List.sum_cons]

theorem fieldElem_gfmulTerm (a b : Byte) (n : Nat) :
    fieldElem (gfmulTerm a b n) = fieldElem a * AdjoinRoot.mk fieldPoly (if b.getLsbD n then X ^ n else 0) := by
  rw [gfmulTerm]
  split
  · rw [fieldElem_iterate_mulx, map_pow, AdjoinRoot.mk_X, mul_comm]
  · rw [map_zero, mul_zero]
    exact fieldElem_zero

/-- GFMUL is the product of the field (R93). -/
@[simp] theorem fieldElem_gfmul (a b : Byte) : fieldElem (gfmul a b) = fieldElem a * fieldElem b := by
  have hsum : ((List.range 8).map fun n => fieldElem (gfmulTerm a b n)).sum =
      ∑ n ∈ Finset.range 8, fieldElem (gfmulTerm a b n) := rfl
  rw [gfmul_eq_foldr, fieldElem_foldr_xor, hsum, fieldElem_eq_sum b, Finset.mul_sum]
  exact Finset.sum_congr rfl fun n _ => fieldElem_gfmulTerm a b n

/-- Settles O29: the divisibility is equality in GF(2)[x]/(m), where a byte is determined by its element. -/
theorem gfmulIsTheFieldProduct : Obligations.GfmulIsTheFieldProduct := by
  intro a b c
  rw [← AdjoinRoot.mk_eq_mk, map_mul]
  change c = gfmul a b ↔ fieldElem c = fieldElem a * fieldElem b
  rw [← fieldElem_gfmul, fieldElem_injective.eq_iff]

/-! ### The laws (R94) -/

theorem gfmul_genPow (i j : Nat) : gfmul (genPow i) (genPow j) = genPow (i + j) :=
  fieldElem_injective (by simp only [fieldElem_gfmul, fieldElem_genPow, pow_add])

/-- Non-zero bytes are powers of the generator, and no power is zero. -/
theorem gfmul_ne_zero (ha : a ≠ 0) (hb : b ≠ 0) : gfmul a b ≠ 0 := by
  obtain ⟨i, -, -, rfl⟩ := exists_genPow ha
  obtain ⟨j, -, -, rfl⟩ := exists_genPow hb
  rw [gfmul_genPow]
  exact genPow_ne_zero _

/-- Settles O30: each law but the last is a law of the ring GF(2)[x]/(m). -/
theorem gfmulLaws : Obligations.GfmulLaws := by
  refine ⟨fun a b => fieldElem_injective ?comm, fun a => ⟨fieldElem_injective ?one, fieldElem_injective ?zero,
    fieldElem_injective ?two⟩, fun a b c => fieldElem_injective ?xor, fun a b c => fieldElem_injective ?assoc,
    fun a b => gfmul_ne_zero⟩
  case comm => simp only [fieldElem_gfmul, mul_comm]
  case one => simp
  case zero => simp
  case two =>
    have htwo : fieldElem 0x02 = AdjoinRoot.root fieldPoly := by
      rw [show (0x02 : Byte) = genPow 1 by decide, fieldElem_genPow, pow_one]
    rw [fieldElem_gfmul, htwo, fieldElem_mulx, mul_comm]
  case xor => simp only [fieldElem_gfmul, fieldElem_xor, mul_add]
  case assoc => simp only [fieldElem_gfmul, mul_assoc]

/-! ### Multiplication by the tables (R94 (e)) -/

theorem genPow_add_255 (n : Nat) : genPow (n + 255) = genPow n :=
  fieldElem_injective (by
    rw [← gfmul_genPow, genPow_255]
    simp)

/-- The generator's powers repeat every 255. -/
theorem genPow_mod_255 (n : Nat) : genPow (n % 255) = genPow n :=
  Function.Periodic.map_mod_nat genPow_add_255 n

/-- Settles O31: the exponents that `LOG` holds add up, and `EXP` holds the power of the sum. -/
theorem gfmulByTheTables : Obligations.GfmulByTheTables := by
  intro s hs htv a b ha hb
  have hbuilt := hs.tablesBuilt htv
  obtain ⟨la, hla, rfl⟩ := exists_byte_genPow ha
  obtain ⟨lb, hlb, rfl⟩ := exists_byte_genPow hb
  refine ⟨la, lb, read_log_genPow hbuilt.logEntry hla, read_log_genPow hbuilt.logEntry hlb, ?_⟩
  rw [hbuilt.expEntry _ (by omega), genPow_mod_255, gfmul_genPow]

end Sys2Proof.Machine

/-! PROOFS of the family 42_lfsr_constructor.md: that the open parameter `TAB_K16` reaches nothing but its own RDT
(spec/42_lfsr_constructor.md rule R103), and that with the default constants CDIR rebuilds `REF` (R102). -/

namespace Sys2Proof.Machine

variable {i : Instr} {x : Byte} {sp : Space} {a : Nat}

/-! ### The constants without `TAB_K[16]` -/

theorem tabKAt_tabK16 (c : Config) (v : Byte) (j : Fin 17) (hj : j.val < 16) :
    tabKAt { c with tabK16 := v } j = tabKAt c j := by
  simp only [tabKAt, dif_pos hj]

/-! ### The constructors (R103, R104, R114) -/

/-- The walk after the columns 0..15 of row `i`. -/
def firstSixteenColumns (c : Config) (i : Fin 15) (w : DirectWalk) : DirectWalk :=
  (List.finRange 16).foldl (fun u j => directColumn c i u j.castSucc) w

theorem firstSixteenColumns_tabK16 (c : Config) (v : Byte) (i : Fin 15) (w : DirectWalk) :
    firstSixteenColumns { c with tabK16 := v } i w = firstSixteenColumns c i w := by
  have hcolumn (u : DirectWalk) (j : Fin 16) :
      directColumn { c with tabK16 := v } i u j.castSucc = directColumn c i u j.castSucc := by
    simp only [directColumn, tabKAt_tabK16 c v j.castSucc j.isLt]
  simp only [firstSixteenColumns, hcolumn]

/-- Of column 16 only the store and the step of `X` last: the value it computes is overwritten by the end of the row
(R103, R104). -/
theorem directRow_eq (c : Config) (w : DirectWalk) (i : Fin 15) :
    directRow c w i =
      let u := firstSixteenColumns c i w
      ⟨Memory.write .canda u.canda u.x.toNat u.z, mulx u.x, tabKAt c (i.castLE (by decide))⟩ := by
  have hcolumns : List.finRange COLS = (List.finRange 16).map Fin.castSucc ++ [Fin.last 16] := List.finRange_succ_last
  rw [directRow, hcolumns, List.foldl_append, List.foldl_map]
  rfl

theorem directRow_tabK16 (c : Config) (v : Byte) : directRow { c with tabK16 := v } = directRow c := by
  funext w i
  rw [directRow_eq, directRow_eq, firstSixteenColumns_tabK16, tabKAt_tabK16 c v _ (Nat.lt_succ_of_lt i.isLt)]

theorem constructDirect_tabK16 (c : Config) (v : Byte) (m : Memory) :
    constructDirect { c with tabK16 := v } m = constructDirect c m := by
  simp only [constructDirect, directRow_tabK16]

/-- CDLOG reads `SIGMA` and the constants of `kappa` only (R113). -/
theorem decomposedEntry_tabK16 (c : Config) (v : Byte) :
    decomposedEntry { c with tabK16 := v } = decomposedEntry c := rfl

theorem decomposeFrom_tabK16 (c : Config) (v : Byte) (exp log : Memory) (ks : List Nat) (m : Memory) :
    decomposeFrom { c with tabK16 := v } exp log ks m = decomposeFrom c exp log ks m := by
  induction ks generalizing m with
  | nil => rfl
  | cons k ks ih => simp only [decomposeFrom, decomposedEntry_tabK16, ih]

theorem constructDecomposed_tabK16 (c : Config) (v : Byte) (exp log m : Memory) :
    constructDecomposed { c with tabK16 := v } exp log m = constructDecomposed c exp log m :=
  decomposeFrom_tabK16 c v exp log _ _

/-! ### What the commands read of a state (R103) -/

theorem permEntry_withTabK16 (s : State) (v : Byte) : (withTabK16 s v).permEntry = s.permEntry := by
  funext t x
  cases t <;> rfl

theorem rotdiff_withTabK16 (s : State) (v : Byte) : rotdiff (withTabK16 s v) = rotdiff s := by
  funext t x
  simp only [rotdiff, permEntry_withTabK16]

theorem rotdRecords_withTabK16 (s : State) (v : Byte) (t : PermSpace) :
    rotdRecords (withTabK16 s v) t (withTabK16 s v).diag = rotdRecords s t s.diag := by
  rw [rotdRecords, rotdiff_withTabK16]
  rfl

theorem checkLoop_withTabK16 (s : State) (v : Byte) : checkLoop (withTabK16 s v) = checkLoop s := by
  have hstep : checkStep (withTabK16 s v) = checkStep s := by
    funext t label r n
    simp only [checkStep, permEntry_withTabK16]
    rfl
  funext t label
  rw [checkLoop, checkLoop, hstep]
  rfl

theorem readReg_withTabK16 (s : State) (v : Byte) : (withTabK16 s v).readReg = s.readReg := by
  funext r
  cases r <;> rfl

/-- The one cell of any space that `TAB_K16` reaches is cell 16 of `TAB_K` (R16, R46). -/
theorem spaceEntry_withTabK16 (s : State) (v : Byte) (h : ¬ (sp = .tabK ∧ a = 16)) :
    (withTabK16 s v).spaceEntry sp a = s.spaceEntry sp a := by
  cases sp with
  | ref | canda | candb | log | exp | tabS | sigma | kbit => rfl
  | tabK =>
    have ha : a ≠ 16 := fun h16 => h ⟨rfl, h16⟩
    simp only [State.spaceEntry]
    split
    · exact congrArg some (tabKAt_tabK16 s.cfg v _ (by simp only; omega))
    · rfl

/-! ### The commands (R103)

Where a loop's result is the same in both states it is generalized first, so that `rfl` compares the states' fields and
does not run the loop. -/

/-- What two states that differ in `TAB_K16` alone answer: next states that differ in it alone, or the same stop. -/
def outcomeWithTabK16 (v : Byte) : Host.Outcome State Fault Refusal → Host.Outcome State Fault Refusal
  | .next t => .next (withTabK16 t v)
  | .fault f => .fault f
  | .refused r => .refused r

theorem execCdir_withTabK16 (s : State) (v : Byte) :
    execCdir (withTabK16 s v) = outcomeWithTabK16 v (execCdir s) := by
  have hwalk : constructDirect (withTabK16 s v).cfg (withTabK16 s v).canda = constructDirect s.cfg s.canda :=
    constructDirect_tabK16 s.cfg v s.canda
  rw [execCdir, execCdir, hwalk]
  rfl

theorem execCdlog_withTabK16 (s : State) (v : Byte) :
    execCdlog (withTabK16 s v) = outcomeWithTabK16 v (execCdlog s) := by
  have hloop :
      constructDecomposed (withTabK16 s v).cfg (withTabK16 s v).exp (withTabK16 s v).log (withTabK16 s v).candb =
        constructDecomposed s.cfg s.exp s.log s.candb := constructDecomposed_tabK16 s.cfg v s.exp s.log s.candb
  have htv : (withTabK16 s v).tv = s.tv := rfl
  rw [execCdlog, execCdlog, hloop, htv]
  split
  · split <;> rfl
  · rfl

theorem execBldtab_withTabK16 (s : State) (v : Byte) :
    execBldtab (withTabK16 s v) = outcomeWithTabK16 v (execBldtab s) := by
  have hwalk : buildTables (withTabK16 s v).exp (withTabK16 s v).log = buildTables s.exp s.log := rfl
  rw [execBldtab, execBldtab, hwalk]
  generalize buildTables s.exp s.log = w
  rfl

theorem execCheck_withTabK16 (c label : Byte) (s : State) (v : Byte) :
    execCheck c label (withTabK16 s v) = outcomeWithTabK16 v (execCheck c label s) := by
  rw [execCheck, execCheck, checkLoop_withTabK16]
  split <;> rfl

theorem execRotd_withTabK16 (c : Byte) (s : State) (v : Byte) :
    execRotd c (withTabK16 s v) = outcomeWithTabK16 v (execRotd c s) := by
  rw [execRotd, execRotd]
  split
  · rfl
  · rename_i t _
    rw [rotdRecords_withTabK16]
    generalize rotdRecords s t s.diag = d
    rfl

theorem execRotdx_withTabK16 (c x : Byte) (s : State) (v : Byte) :
    execRotdx c x (withTabK16 s v) = outcomeWithTabK16 v (execRotdx c x s) := by
  rw [execRotdx, execRotdx, rotdiff_withTabK16]
  split <;> rfl

theorem execRdr_withTabK16 (r : Byte) (s : State) (v : Byte) :
    execRdr r (withTabK16 s v) = outcomeWithTabK16 v (execRdr r s) := by
  rw [execRdr, execRdr, readReg_withTabK16]
  split <;> rfl

theorem eq_six_of_spaceOf_tabK : ∀ c : Byte, spaceOf c = some .tabK → c = 6 := by decide +kernel

/-- RDT answers from the cell it names, which is `TAB_K[16]` for the operands `6, 16` alone. -/
theorem execRdt_withTabK16 (c index : Byte) (s : State) (v : Byte) (h : ¬ (c = 6 ∧ index = 16)) :
    execRdt c index (withTabK16 s v) = outcomeWithTabK16 v (execRdt c index s) := by
  rw [execRdt, execRdt]
  cases hsp : spaceOf c with
  | none => rfl
  | some sp =>
    have hcell : (withTabK16 s v).spaceEntry sp index.toNat = s.spaceEntry sp index.toNat :=
      spaceEntry_withTabK16 s v fun ⟨htabK, hindex⟩ =>
        h ⟨eq_six_of_spaceOf_tabK c (htabK ▸ hsp), BitVec.eq_of_toNat_eq hindex⟩
    have hchecks : rdtRefusal (withTabK16 s v) sp index.toNat = rdtRefusal s sp index.toNat := rfl
    simp only [hcell, hchecks]
    split
    · rfl
    · split <;> rfl

theorem exec_withTabK16 (s : State) (v : Byte) (hi : i ≠ .rdt 6 16) :
    exec i (withTabK16 s v) = outcomeWithTabK16 v (exec i s) := by
  cases i with
  | nop | mulx | gfmul | kappa => rfl
  | bldtab => exact execBldtab_withTabK16 s v
  | cdir => exact execCdir_withTabK16 s v
  | cdlog => exact execCdlog_withTabK16 s v
  | check c label => exact execCheck_withTabK16 c label s v
  | rotd c => exact execRotd_withTabK16 c s v
  | rotdx c x => exact execRotdx_withTabK16 c x s v
  | rdt c index => exact execRdt_withTabK16 c index s v fun ⟨hc, hindex⟩ => hi (by rw [hc, hindex])
  | rdr r => exact execRdr_withTabK16 r s v

/-- Settles O24: command by command; CDIR computes with `TAB_K[16]` but overwrites the result before it is stored. -/
theorem tabK16IsSeenOnlyByItsOwnRead : Obligations.TabK16IsSeenOnlyByItsOwnRead := by
  intro i s v hi
  rw [exec_withTabK16 s v hi]
  exact ⟨fun t ht => by rw [ht]; rfl, fun f hf => by rw [hf]; rfl⟩

/-! ### CDIR with the default constants (R102) -/

/-- At every position the walk stores the entry of the default `REF` (R101, R102). -/
theorem directValue_default :
    ∀ (i : Fin 15) (j : Fin 17), directValue defaultConfig i j = refDefault[(genPow (17 * i.val + j.val)).toNat] := by
  decide +kernel

/-- The positions of the walk, fifteen rows of seventeen columns, meet every non-zero index. -/
theorem exists_walkPosition (hx : x ≠ 0) : ∃ (i : Fin 15) (j : Fin 17), genPow (17 * i.val + j.val) = x := by
  obtain ⟨e, -, -, rfl⟩ := exists_genPow hx
  refine ⟨⟨e % 255 / 17, by omega⟩, ⟨e % 255 % 17, by omega⟩, ?_⟩
  rw [Nat.div_add_mod, genPow_mod_255]

theorem read_constructDirect_default (m : Memory) (x : Byte) :
    Memory.read .canda (constructDirect defaultConfig m).canda x.toNat = some refDefault[x.toNat] := by
  obtain ⟨hwalk, -⟩ := constructDirect_at defaultConfig m
  by_cases hx : x = 0
  · subst hx
    exact hwalk.zero
  · obtain ⟨i, j, rfl⟩ := exists_walkPosition hx
    rw [hwalk.stored i j (by omega), directValue_default]

/-- Settles O37: the walk is that of the default configuration, whatever `TAB_K16` is, and stores the default `REF`. -/
theorem cdirRebuildsRef : Obligations.CdirRebuildsRef := by
  intro s h
  have hentry (x : Byte) : candEntry .canda (constructDirect s.cfg s.canda).canda x = s.refEntry x := by
    rw [refEntry_of_default h]
    obtain ⟨v, hv⟩ := h
    rw [hv, constructDirect_tabK16, candEntry, read_constructDirect_default]
    rfl
  have hbijective : Function.Bijective (candEntry .canda (constructDirect s.cfg s.canda).canda) := by
    rw [funext hentry]
    exact refEntry_bijective_of_default h
  exact ⟨_, rfl, hentry, hbijective⟩

end Sys2Proof.Machine

/-! PROOFS of the family 43_dlog_decomposer.md: KAPPA (spec/43_dlog_decomposer.md rule R111), the entries CDLOG builds and
which branch each input takes (R113, R114, R116), and that they are those of CDIR when the constants are tied (R118),
which the default constants are (R115). -/

namespace Sys2Proof.Machine

variable {s : State} {c : Config} {exp log canda candb : Memory} {e : Nat}

/-! ### KAPPA (R110, R111) -/

/-- Settles O38: `kappa` is the formula, and the format A leaves `A` free. -/
theorem kappaResult : Obligations.KappaResult := by
  refine ⟨fun s v => rfl, fun s rest v b c hin => ?_⟩
  rw [step_of_legalOpcode (op := .kappa) (P := b = 0 ∧ c = 0) hin (by rw [fieldOpc_packFields]; rfl)
    (by simp only [Opcode.format, Format.fieldsZero, fieldB_packFields, fieldC_packFields, and_comm])]
  simp only [Opcode.operands, fieldA_packFields]

/-! ### The positions of the exponent walk (R114) -/

/-- An exponent 1..255 is that of a main term or that of a boundary term. -/
theorem exponent_cases (h1 : 1 ≤ e) (h255 : e ≤ 255) :
    (∃ (row : Fin 15) (col : Fin 16), e = 17 * row.val + col.val + 1) ∨ ∃ row : Fin 15, e = 17 * (row.val + 1) := by
  by_cases hcol : (e - 1) % 17 < 16
  · exact .inl ⟨⟨(e - 1) / 17, by omega⟩, ⟨(e - 1) % 17, hcol⟩, by simp only; omega⟩
  · exact .inr ⟨⟨(e - 1) / 17, by omega⟩, by simp only; omega⟩

/-- `LOG` at the `e`-th power, as a byte whose value is `e` (R81). -/
theorem TablesBuilt.exists_log_genPow (h : TablesBuilt exp log) (h1 : 1 ≤ e) (h255 : e ≤ 255) :
    ∃ l, Memory.read .log log (genPow e).toNat = some l ∧ l.toNat = e :=
  ⟨_, h.logEntry e h1 h255, Nat.mod_eq_of_lt (by omega)⟩

/-- `EXP[17 * SIGMA[row]]` is the row's power of the generator (R117). -/
theorem TablesBuilt.read_exp_sigma (h : TablesBuilt exp log) (hc : c.wf) (row : Fin 15) :
    Memory.read .exp exp (17 * (c.sigma[row]).toNat) = some (genPow (17 * (c.sigma[row]).toNat)) :=
  h.expEntry _ (by have := sigma_lt hc row; omega)

/-! ### What CDLOG leaves (R113, R116) -/

/-- On built tables the loop of R113 ends in the closed form: each position's cell holds the entry of its term. -/
theorem constructDecomposed_decomposedBuilt (hc : c.wf) (h : TablesBuilt exp log) (m : Memory) :
    ∃ m', constructDecomposed c exp log m = .ok m' ∧ DecomposedBuilt c m' := by
  obtain ⟨m', hrun, hzero, hentries, -⟩ := constructDecomposed_ok hc h m
  have cell {e : Nat} {v : Byte} (hv : decomposedEntry c exp log (genPow e).toNat = .ok v) :
      Memory.read .candb m' (genPow e).toNat = some v := by
    obtain ⟨out, hout, hread⟩ := hentries (genPow e).toNat (Nat.pos_of_ne_zero (genPow_toNat_ne_zero e))
      (Nat.le_of_lt_succ (genPow e).isLt)
    cases hv.symm.trans hout
    exact hread
  refine ⟨m', hrun, hzero, fun row col => cell ?main, fun row => cell ?boundary⟩
  case main =>
    obtain ⟨l, hl, hpos⟩ := h.exists_log_genPow (e := 17 * row.val + col.val + 1) (by omega) (by omega)
    exact decomposedEntry_main c exp log _ row col l _ hl hpos (sigma_lt hc row) (h.read_exp_sigma hc row)
  case boundary =>
    obtain ⟨l, hl, hpos⟩ := h.exists_log_genPow (e := 17 * (row.val + 1)) (by omega) (by omega)
    exact decomposedEntry_boundary c exp log _ row l hl hpos

/-- CDLOG of built tables completes with the closed form in `CANDB`, and changes nothing else. -/
theorem exec_cdlog_built (hc : s.cfg.wf) (htv : s.tv = true) (h : TablesBuilt s.exp s.log) :
    ∃ m, exec .cdlog s = .next (okEnd { s with candb := m } 0) ∧ DecomposedBuilt s.cfg m := by
  obtain ⟨m, hm, hbuilt⟩ := constructDecomposed_decomposedBuilt hc h s.candb
  exact ⟨m, exec_cdlog_of_ok htv hm, hbuilt⟩

theorem exec_cdlog_notab (htv : s.tv = false) : exec .cdlog s = .next (errEnd s 5) := by
  simp only [exec, execCdlog, htv]
  rfl

/-- Settles O41, by the closed form. -/
theorem cdlogBuildsTheClosedForm : Obligations.CdlogBuildsTheClosedForm := by
  intro s hs htv
  obtain ⟨m, hexec, hbuilt⟩ := exec_cdlog_built hs.cfgWf htv (hs.tablesBuilt htv)
  exact ⟨_, hexec, hbuilt⟩

/-- Settles O40: the input `k` is a power of the generator, whose exponent `LOG[k]` is the position of a main or of a
boundary term. -/
theorem cdlogResult : Obligations.CdlogResult := by
  refine ⟨fun s hs htv => ?built, fun s => exec_cdlog_notab, fun s rest a b c hin => ?word⟩
  case built =>
    have htables := hs.tablesBuilt htv
    obtain ⟨m, hexec, hbuilt⟩ := exec_cdlog_built hs.cfgWf htv htables
    refine ⟨m, hexec, hbuilt.zero, fun k h1 h255 => ?_⟩
    obtain ⟨e, he1, he255, rfl, -⟩ := htables.exists_log h1 h255
    obtain ⟨l, hl, hle⟩ := htables.exists_log_genPow he1 he255
    obtain ⟨row, col, rfl⟩ | ⟨row, rfl⟩ := exponent_cases he1 he255
    · exact ⟨l, row, col.castSucc, hl, hle,
        fun _ => ⟨_, htables.read_exp_sigma hs.cfgWf row, hbuilt.main row col⟩,
        fun h16 => absurd h16 col.isLt.ne⟩
    · exact ⟨l, row, Fin.last 16, hl, hle, fun hlt => absurd hlt (lt_irrefl 16), fun _ => hbuilt.boundary row⟩
  case word =>
    refine step_of_legalOpcode (op := .cdlog) hin (by rw [fieldOpc_packFields]; rfl) ?_
    simp only [Opcode.format, Format.fieldsZero, fieldA_packFields, fieldB_packFields, fieldC_packFields]
    tauto

/-! ### The boundary branch (R116) -/

theorem takesBoundary_genPow (h : TablesBuilt s.exp s.log) (row : Fin 15) :
    takesBoundary s (genPow (17 * (row.val + 1))).toNat := by
  obtain ⟨l, hl, hpos⟩ := h.exists_log_genPow (e := 17 * (row.val + 1)) (by omega) (by omega)
  exact takesBoundary_of_boundary hl hpos

theorem not_takesBoundary_genPow (hc : s.cfg.wf) (h : TablesBuilt s.exp s.log) (row : Fin 15) (col : Fin 16) :
    ¬ takesBoundary s (genPow (17 * row.val + col.val + 1)).toNat := by
  obtain ⟨l, hl, hpos⟩ := h.exists_log_genPow (e := 17 * row.val + col.val + 1) (by omega) (by omega)
  exact not_takesBoundary_of_main hl hpos (sigma_lt hc row) (h.read_exp_sigma hc row)

/-- The boundary inputs of R116, by row. -/
def boundaryInput (row : Fin 15) : Nat := (genPow (17 * (row.val + 1))).toNat

theorem boundaryInput_injective : Function.Injective boundaryInput := fun r r' h => by
  have hsucc : mulx (genPow (17 * r.val + 16)) = mulx (genPow (17 * r'.val + 16)) := by
    rw [← genPow_succ, ← genPow_succ]
    exact BitVec.eq_of_toNat_eq h
  have hexponent := genPow_injOn (by omega) (by omega) (mulx_injective hsucc)
  omega

theorem boundaryInput_mem (row : Fin 15) : boundaryInput row ∈ Set.Icc 1 255 :=
  ⟨Nat.pos_of_ne_zero (genPow_toNat_ne_zero _), Nat.le_of_lt_succ (genPow _).isLt⟩

/-- The inputs 1..255 that take the boundary branch are the boundary inputs. -/
theorem inter_takesBoundary (hc : s.cfg.wf) (h : TablesBuilt s.exp s.log) :
    Set.Icc 1 255 ∩ {k | takesBoundary s k} = Set.range boundaryInput := by
  ext k
  constructor
  · rintro ⟨⟨h1, h255⟩, hk⟩
    obtain ⟨e, he1, he255, rfl, -⟩ := h.exists_log h1 h255
    obtain ⟨row, col, rfl⟩ | ⟨row, rfl⟩ := exponent_cases he1 he255
    · exact absurd hk (not_takesBoundary_genPow hc h row col)
    · exact ⟨row, rfl⟩
  · rintro ⟨row, rfl⟩
    exact ⟨boundaryInput_mem row, takesBoundary_genPow h row⟩

theorem ncard_takesBoundary (hc : s.cfg.wf) (h : TablesBuilt s.exp s.log) :
    (Set.Icc 1 255 ∩ {k | takesBoundary s k}).ncard = 15 := by
  rw [inter_takesBoundary hc h, Set.ncard_range_of_injective boundaryInput_injective, Nat.card_fin]

/-- The inputs that do not take the boundary branch are the rest of the 255. -/
theorem ncard_not_takesBoundary (hc : s.cfg.wf) (h : TablesBuilt s.exp s.log) :
    (Set.Icc 1 255 \ {k | takesBoundary s k}).ncard = 240 := by
  have hsplit := Set.ncard_inter_add_ncard_sdiff_eq_ncard (Set.Icc 1 255) {k | takesBoundary s k}
  rw [ncard_takesBoundary hc h, Set.ncard_Icc_nat] at hsplit
  omega

theorem setOf_input_and (P : Nat → Prop) : {k | 1 ≤ k ∧ k ≤ 255 ∧ P k} = Set.Icc 1 255 ∩ {k | P k} :=
  Set.ext fun _ => and_assoc.symm

/-- Settles O43: the boundary branch is taken at the 15 boundary inputs and by no main term; the cells are those of the
closed form. -/
theorem boundaryBranchTakenFifteenTimes : Obligations.BoundaryBranchTakenFifteenTimes := by
  intro s hs htv
  have htables := hs.tablesBuilt htv
  obtain ⟨m, hexec, hbuilt⟩ := exec_cdlog_built hs.cfgWf htv htables
  rw [setOf_input_and, setOf_input_and]
  exact ⟨ncard_takesBoundary hs.cfgWf htables, ncard_not_takesBoundary hs.cfgWf htables, _, hexec,
    fun row => ⟨takesBoundary_genPow htables row, hbuilt.boundary row⟩,
    fun row col => ⟨not_takesBoundary_genPow hs.cfgWf htables row col, hbuilt.main row col⟩⟩

/-! ### The two constructors (R118) -/

/-- The walk of CDIR ends in the closed form of R101. -/
theorem constructDirect_directBuilt (c : Config) (m : Memory) : DirectBuilt c (constructDirect c m).canda := by
  obtain ⟨hwalk, -⟩ := constructDirect_at c m
  refine ⟨hwalk.zero, hwalk.stored 0 0 (by decide), fun i => ?rowStart, fun i j => ?inner⟩
  case rowStart =>
    refine (hwalk.stored i.succ 0 (by simp only [Fin.val_succ, Fin.val_zero]; omega)).trans ?_
    simp only [directValue, Fin.val_succ, Fin.val_zero, Nat.add_sub_cancel]
    rfl
  case inner =>
    refine (hwalk.stored i j.succ (by simp only [Fin.val_succ]; omega)).trans ?_
    simp [directValue, tabKAt]

/-- The ties of R118 between the constants of the two constructors. -/
structure ConstantsTied (c : Config) : Prop where
  tabK : ∀ j : Fin 16, c.tabK[j] = kappa c (BitVec.ofNat 8 j.val)
  tabS : ∀ i : Fin 15, c.tabS[i] = genPow (17 * (c.sigma[i]).toNat)
  z0 : kappa c 14 = 0xEE

/-- The values that `Z` is reset to after the rows 0..13 are those of kappa. -/
theorem ConstantsTied.tabKAt_castLE (h : ConstantsTied c) (i : Fin 14) :
    tabKAt c (i.castLE (by decide)) = kappa c (BitVec.ofNat 8 i.val) :=
  (dif_pos (show i.val < 16 by omega)).trans (h.tabK (i.castLE (by decide)))

/-- Term by term: the main terms are the inner columns, the boundary terms of the rows 0..13 the starts of the rows
1..14, and that of row 14 the first value of the walk. -/
theorem read_canda_eq_read_candb (hd : DirectBuilt c canda) (hb : DecomposedBuilt c candb) (h : ConstantsTied c)
    (x : Byte) : Memory.read .canda canda x.toNat = Memory.read .candb candb x.toNat := by
  by_cases hx : x = 0
  · rw [hx]
    exact hd.zero.trans hb.zero.symm
  · obtain ⟨e, he1, he255, rfl⟩ := exists_genPow hx
    obtain ⟨row, col, rfl⟩ | ⟨row, rfl⟩ := exponent_cases he1 he255
    · rw [hd.inner, hb.main, h.tabK, h.tabS]
    · rw [hb.boundary]
      induction row using Fin.lastCases with
      | cast i => exact (hd.rowStart i).trans (congrArg some (h.tabKAt_castLE i))
      | last =>
        have hone : genPow (17 * ((Fin.last 14).val + 1)) = 0x01 := genPow_255
        rw [hone]
        exact hd.first.trans (congrArg some h.z0.symm)

theorem candEntry_canda_eq_candEntry_candb (hd : DirectBuilt c canda) (hb : DecomposedBuilt c candb)
    (h : ConstantsTied c) (x : Byte) : candEntry .canda canda x = candEntry .candb candb x :=
  congrArg (Option.getD · 0x00) (read_canda_eq_read_candb hd hb h x)

/-- Settles O44: CDIR leaves the tables that CDLOG reads, and the two closed forms agree cell by cell. -/
theorem constructorsAgree : Obligations.ConstructorsAgree := by
  intro s hs htv htabK htabS hz0
  obtain ⟨m, hexec, hbuilt⟩ := exec_cdlog_built (s := (s.putDirect (constructDirect s.cfg s.canda)).complete 0)
    hs.cfgWf ((complete_tv _ _).trans htv) (hs.tablesBuilt htv)
  exact ⟨_, _, rfl, hexec,
    candEntry_canda_eq_candEntry_candb (constructDirect_directBuilt s.cfg s.canda) hbuilt ⟨htabK, htabS, hz0⟩⟩

/-! ### CDLOG with the default constants (R115) -/

theorem constantsTied_default (h : defaultConstants c) : ConstantsTied c := by
  obtain ⟨v, rfl⟩ := h
  have htied : ConstantsTied defaultConfig := ⟨by decide +kernel, by decide +kernel, by decide +kernel⟩
  exact ⟨htied.tabK, htied.tabS, htied.z0⟩

/-- Settles O42: the default constants are tied, so CDLOG builds what the walk of CDIR would, which is `REF` (R102). -/
theorem cdlogRebuildsRef : Obligations.CdlogRebuildsRef := by
  intro s hs htv hdefault
  obtain ⟨m, hexec, hbuilt⟩ := exec_cdlog_built hs.cfgWf htv (hs.tablesBuilt htv)
  obtain ⟨t, hcdir, hcanda, -⟩ := cdirRebuildsRef s hdefault
  cases hcdir
  have hentry (x : Byte) : candEntry .candb m x = s.refEntry x :=
    (candEntry_canda_eq_candEntry_candb (constructDirect_directBuilt s.cfg s.canda) hbuilt
      (constantsTied_default hdefault) x).symm.trans (hcanda x)
  have hbijective : Function.Bijective (candEntry .candb m) := by
    rw [funext hentry]
    exact refEntry_bijective_of_default hdefault
  exact ⟨_, hexec, hentry, hbijective⟩

end Sys2Proof.Machine

/-! PROOFS of the family 44_equivalence_checker.md: what CHECK appends and counts (spec/44_equivalence_checker.md rule
R125), and what a zero count means (R126, R127). -/

namespace Sys2Proof.Machine

variable {s : State} {c label : Byte} {t : PermSpace}

/-! ### The selectors of CHECK, ROTD and ROTDX (R66) -/

theorem permSpaceOf_eq_some_of_mem (h : (c, t) ∈ permSelectors) : permSpaceOf c = some t := by
  simp only [permSelectors, List.mem_cons, List.not_mem_nil, Prod.mk.injEq, or_false] at h
  obtain ⟨rfl, rfl⟩ | ⟨rfl, rfl⟩ | ⟨rfl, rfl⟩ := h <;> rfl

/-! ### The indices at which a table differs from `REF` -/

/-- The mismatching indices of a CHECK, in index order. -/
def mismatches (s : State) (t : PermSpace) : List Byte :=
  ((List.range 256).map (BitVec.ofNat 8)).filter (fun i => s.permEntry t i != s.refEntry i)

theorem mem_mismatches {i : Byte} : i ∈ mismatches s t ↔ s.permEntry t i ≠ s.refEntry i := by
  have hi : i ∈ (List.range 256).map (BitVec.ofNat 8) :=
    List.mem_map.2 ⟨i.toNat, List.mem_range.2 i.isLt, BitVec.ofNat_toNat 8 i⟩
  simp [mismatches, List.mem_filter, hi]

theorem length_mismatches_le (s : State) (t : PermSpace) : (mismatches s t).length ≤ 256 :=
  (List.length_filter_le _ _).trans (by simp)

theorem mismatches_eq_nil_iff : mismatches s t = [] ↔ ∀ i : Byte, s.permEntry t i = s.refEntry i := by
  simp [List.eq_nil_iff_forall_not_mem, mem_mismatches]

/-! ### What CHECK counts -/

/-- The count of a CHECK (R125). -/
def mismatchCount (s : State) (t : PermSpace) : Word := BitVec.ofNat 32 (mismatches s t).length

/-- There are at most 256 mismatches, so the 32-bit count does not wrap. -/
theorem mismatchCount_toNat (s : State) (t : PermSpace) : (mismatchCount s t).toNat = (mismatches s t).length :=
  Nat.mod_eq_of_lt (by have := length_mismatches_le s t; omega)

/-- A zero count means that the table is `REF` (R126). -/
theorem mismatchCount_eq_zero_iff : mismatchCount s t = 0 ↔ ∀ i : Byte, s.permEntry t i = s.refEntry i := by
  rw [← mismatches_eq_nil_iff, ← List.length_eq_zero_iff, ← mismatchCount_toNat, BitVec.toNat_eq]
  rfl

/-! ### The command -/

theorem checkLoop_eq (s : State) (t : PermSpace) (label : Byte) :
    checkLoop s t label =
      ⟨s.diag ++ (mismatches s t).map (fun i => mismatchRecord label i (s.permEntry t i) (s.refEntry i)),
        mismatchCount s t⟩ := by
  rw [checkLoop, checkSteps_eq]
  exact congrArg (CheckRun.mk _) (BitVec.zero_add _)

/-- CHECK with a legal selector completes, with the mismatches in order and the SUMMARY appended (R125). -/
theorem exec_check (h : (c, t) ∈ permSelectors) :
    exec (.check c label) s = .next (okEnd
      { s with
        diag := s.diag ++ (mismatches s t).map (fun i => mismatchRecord label i (s.permEntry t i) (s.refEntry i)) ++
          [summaryRecord label (mismatchCount s t)]
        miscnt := mismatchCount s t } (mismatchCount s t)) := by
  simp only [exec, execCheck, permSpaceOf_eq_some_of_mem h, checkLoop_eq]
  rfl

theorem exec_check_illegalSelector (h : 2 < c.toNat) : exec (.check c label) s = .next (errEnd s 3) := by
  simp only [exec, execCheck, permSpaceOf_eq_none_iff.2 h]
  rfl

/-- Settles O46: the loop's list of records, the check of the selector, and the format AC, which leaves `A` and `C`
free. -/
theorem checkResult : Obligations.CheckResult := by
  refine ⟨fun s c label t h => exec_check h, fun s c label h => exec_check_illegalSelector h,
    fun s rest a b c hin => ?word⟩
  case word =>
    rw [step_of_legalOpcode (op := .check) (P := b = 0) hin (by rw [fieldOpc_packFields]; rfl)
      (by simp only [Opcode.format, Format.fieldsZero, fieldB_packFields])]
    simp only [Opcode.operands, fieldA_packFields, fieldC_packFields]

/-- Settles O47: the count is that of the mismatching indices, and a table without any is the function `REF`. -/
theorem checkCountIsZeroExactlyOnEquality : Obligations.CheckCountIsZeroExactlyOnEquality := by
  intro s c label t h
  refine ⟨_, exec_check h, complete_err _ _, ?bound, mismatchCount_eq_zero_iff, fun href hzero => ?bijective⟩
  case bound => exact (mismatchCount_toNat s t).trans_le (length_mismatches_le s t)
  case bijective =>
    have hentry : s.permEntry t = s.refEntry := funext (mismatchCount_eq_zero_iff.1 hzero)
    rwa [hentry]

end Sys2Proof.Machine

/-! PROOFS of the family 45_rotational_diff.md: where the rotational difference is zero
(spec/45_rotational_diff.md rule R136), and the records that ROTD appends (R137, R139). -/

namespace Sys2Proof.Machine

variable {s : State} {c x : Byte} {t : PermSpace}

/-! ### The rotate (R135) -/

theorem rotl1_eq_rotateLeft (x : Byte) : rotl1 x = x.rotateLeft 1 := rfl

theorem getLsbD_rotl1_succ {n : Nat} (h : n < 7) : (rotl1 x).getLsbD (n + 1) = x.getLsbD n := by
  rw [rotl1_eq_rotateLeft, BitVec.getLsbD_rotateLeft]
  simp [show n + 1 < 8 by omega]

/-- A byte that the rotate leaves alone has one value in all its bits. -/
theorem getLsbD_eq_getLsbD_zero_of_rotl1_eq_self (h : rotl1 x = x) :
    ∀ n < 8, x.getLsbD n = x.getLsbD 0 := by
  intro n hn
  induction n with
  | zero => rfl
  | succ n ih =>
    calc x.getLsbD (n + 1) = (rotl1 x).getLsbD (n + 1) := by rw [h]
      _ = x.getLsbD n := getLsbD_rotl1_succ (by omega)
      _ = x.getLsbD 0 := ih (by omega)

theorem rotl1_eq_self_iff : rotl1 x = x ↔ x = 0x00 ∨ x = 0xFF := by
  constructor
  · intro h
    have hbits := getLsbD_eq_getLsbD_zero_of_rotl1_eq_self h
    cases h0 : x.getLsbD 0 with
    | false =>
      exact .inl (BitVec.eq_of_getLsbD_eq fun n hn => by
        rw [hbits n hn, h0, BitVec.ofNat_eq_ofNat, BitVec.getLsbD_zero])
    | true =>
      have hones : (0xFF : Byte) = BitVec.allOnes 8 := rfl
      exact .inr (BitVec.eq_of_getLsbD_eq fun n hn => by
        rw [hbits n hn, h0, hones, BitVec.getLsbD_allOnes, decide_eq_true hn])
  · rintro (rfl | rfl) <;> rfl

/-! ### The rotational difference (R136) -/

theorem rotdiff_eq_zero_iff : rotdiff s t x = 0x00 ↔ s.permEntry t (rotl1 x) = s.permEntry t x :=
  BitVec.xor_eq_zero_iff

theorem rotdiff_eq_zero_of_rotl1_eq_self (h : rotl1 x = x) : rotdiff s t x = 0x00 :=
  rotdiff_eq_zero_iff.2 (congrArg _ h)

/-- Settles O49: the rotate fixes `0x00` and `0xFF` only, and a bijection takes no value twice. -/
theorem rotdiffZeros : Obligations.RotdiffZeros := by
  intro s t
  refine ⟨fun x => rfl, rotdiff_eq_zero_of_rotl1_eq_self (rotl1_eq_self_iff.2 (.inl rfl)),
    rotdiff_eq_zero_of_rotl1_eq_self (rotl1_eq_self_iff.2 (.inr rfl)), fun hbij x hx => ?onlyZeros⟩
  case onlyZeros => exact rotl1_eq_self_iff.1 (hbij.injective (rotdiff_eq_zero_iff.1 hx))

/-! ### The sequence of ROTD (R137) -/

/-- The 256 records of a ROTD, in the order of `x`. -/
def rotdSequence (s : State) (t : PermSpace) : List DiagRecord :=
  ((List.range 256).map (BitVec.ofNat 8)).map (fun x => rotdiffRecord x (rotdiff s t x))

theorem rotdRecords_eq (s : State) (t : PermSpace) (d : List DiagRecord) :
    rotdRecords s t d = d ++ rotdSequence s t :=
  rotdSteps_eq s t (List.range 256) d

theorem length_rotdSequence (s : State) (t : PermSpace) : (rotdSequence s t).length = 256 := by
  simp [rotdSequence]

/-- The end of a command and the records before it leave the tables, so also the sequence. -/
theorem rotdSequence_okEnd (s : State) (t : PermSpace) (d : List DiagRecord) (r : Word) :
    rotdSequence (okEnd { s with diag := d } r) t = rotdSequence s t := by
  cases t <;> rfl

/-! ### The command -/

/-- ROTD with a legal selector completes, with its sequence appended (R137). -/
theorem exec_rotd (h : (c, t) ∈ permSelectors) :
    exec (.rotd c) s = .next (okEnd { s with diag := s.diag ++ rotdSequence s t } 0) := by
  simp only [exec, execRotd, permSpaceOf_eq_some_of_mem h, rotdRecords_eq]
  rfl

theorem exec_rotd_illegalSelector (h : 2 < c.toNat) : exec (.rotd c) s = .next (errEnd s 3) := by
  simp only [exec, execRotd, permSpaceOf_eq_none_iff.2 h]
  rfl

/-- Settles O50: the loop's list of records, which are the statement's by the layout of R27 and `rotl1_eq_rotateLeft`,
the check of the selector, and the format C, which leaves `C` free. -/
theorem rotdResult : Obligations.RotdResult := by
  refine ⟨fun s c t h => exec_rotd h, fun s c h => exec_rotd_illegalSelector h, fun s rest a b c hin => ?word⟩
  case word =>
    rw [step_of_legalOpcode (op := .rotd) (P := a = 0 ∧ b = 0) hin (by rw [fieldOpc_packFields]; rfl)
      (by simp only [Opcode.format, Format.fieldsZero, fieldA_packFields, fieldB_packFields, and_comm])]
    simp only [Opcode.operands, fieldC_packFields]

/-- Settles O51: the first ROTD leaves the table that the second one reads. -/
theorem rotdIsRestartable : Obligations.RotdIsRestartable := by
  intro s c t h
  exact ⟨rotdSequence s t, _, _, length_rotdSequence s t, exec_rotd h, rfl, exec_rotd h,
    congrArg _ (rotdSequence_okEnd s t _ 0)⟩

end Sys2Proof.Machine

/-! PROOFS of the family 46_access_and_system.md: NOP, RDT and RDR (spec/46_access_and_system.md rules R145, R146 and R148),
and the contents that the mutable tables can have (R147). -/

namespace Sys2Proof.Machine

variable {s t : State} {i : Instr} {c a r v : Byte} {sp : Space} {e : Err} {reg : Reg} {exp log : Memory}
  {lw : LfsrWalk}

/-! ### The contents of the mutable tables (R147) -/

/-- A whole walk over tables whose `LOG[0]` holds no value leaves built tables: it never writes that cell. -/
theorem WalkAt.tablesBuilt (h : WalkAt exp log 256 lw) (hzero : Memory.read .log log 0 = none) :
    TablesBuilt lw.exp lw.log :=
  ⟨fun _ => h.exp_eq_genPow, fun _ => h.log_eq_exponent, h.logZero.trans hzero⟩

theorem ContentsFinite.read_log_zero (h : ContentsFinite s) : Memory.read .log s.log 0 = none := by
  obtain ⟨-, hlog⟩ | hbuilt := h.tables
  · rw [hlog]; rfl
  · exact hbuilt.logZero

theorem ContentsFinite.withInput (h : ContentsFinite s) (l : List HostInput) : ContentsFinite { s with input := l } :=
  ⟨h.canda, h.candb, h.tables⟩

theorem ContentsFinite.refuse (h : ContentsFinite s) (e : Err) : ContentsFinite (s.refuse e) :=
  ⟨h.canda, h.candb, h.tables⟩

theorem contentsFinite_hardReset (s : State) : ContentsFinite (hardReset s) :=
  ⟨.inl rfl, .inl rfl, .inl ⟨rfl, rfl⟩⟩

/-- Table by table: the one command that writes it leaves the closed form, every other command leaves the table. A CDLOG
that is not refused has built tables to read, by the invariant. -/
theorem exec_contentsFinite (hs : Inv s) (h : ContentsFinite s) (hexec : exec i s = .next t) : ContentsFinite t := by
  obtain ⟨hcfg, -, htables, -, hcanda, hcandb, -⟩ := onlyTheNamedCommandWrites i s t hexec
  refine ⟨?canda, ?candb, ?tables⟩
  case canda =>
    by_cases hi : i = .cdir
    · subst hi
      cases hexec
      exact .inr (constructDirect_directBuilt s.cfg s.canda)
    · obtain ⟨-, hkept⟩ := hcanda hi
      rw [hcfg, hkept]
      exact h.canda
  case candb =>
    by_cases hi : i = .cdlog
    · subst hi
      cases htv : s.tv with
      | true =>
        obtain ⟨m, hrun, hbuilt⟩ := exec_cdlog_built hs.cfgWf htv (hs.tablesBuilt htv)
        cases hrun.symm.trans hexec
        exact .inr hbuilt
      | false =>
        cases (exec_cdlog_notab htv).symm.trans hexec
        exact h.candb
    · rw [hcfg, hcandb hi]
      exact h.candb
  case tables =>
    by_cases hi : i = .bldtab
    · subst hi
      obtain ⟨lw, hwalk, hrun⟩ := exec_bldtab_walk s
      cases hrun.symm.trans hexec
      exact .inr (hwalk.tablesBuilt h.read_log_zero)
    · obtain ⟨hlog, hexp, -⟩ := htables hi
      rw [hlog, hexp]
      exact h.tables

/-- Settles O15: by the cases of a step; a command that writes a table is one of the three constructors. -/
theorem mutableTableContentsStayFinite : Obligations.MutableTableContentsStayFinite := by
  intro s t hs h hstep
  obtain ⟨-, rfl⟩ | ⟨rest, -, rfl⟩ | ⟨w, rest, e, -, -, rfl⟩ | ⟨w, rest, i, -, -, hexec⟩ := step_cases hstep
  · exact h
  · exact contentsFinite_hardReset _
  · exact (h.withInput rest).refuse e
  · exact exec_contentsFinite (hs.withInput rest) (h.withInput rest) hexec

/-! ### What RDT reads (R40, R146) -/

/-- A cell of a candidate holds its entry: `0x00` where nothing is listed (R21, R30). -/
theorem read_eq_some_candEntry (h : unlisted sp = some 0x00) (m : Memory) (a : Byte) :
    Memory.read sp m a.toNat = some (candEntry sp m a) := by
  obtain ⟨u, hu⟩ := exists_read_of_unlisted (m := m) (a := a.toNat) h
  rw [candEntry, hu, Option.getD_some]

theorem tabKAt_of_lt (c : Config) {j : Nat} (h : j < 16) : tabKAt c ⟨j, Nat.lt_succ_of_lt h⟩ = c.tabK[j] := dif_pos h

/-! ### RDT as a command (R146) -/

/-- Only `LOG` and `EXP` have checks besides that of the index. -/
theorem exec_rdt_withoutTables (hsp : spaceOf c = some sp) (hfree : spaceNeedsTables sp = false)
    (hlen : a.toNat < spaceLen sp) (hv : s.spaceEntry sp a.toNat = some v) :
    exec (.rdt c a) s = .next (okEnd s (v.setWidth 32)) := by
  refine exec_rdt_of_spaceEntry hsp (rdtRefusal_eq_none_iff.2 ⟨hlen, fun hneeds => ?_, ?_⟩) hv
  · simp [hfree] at hneeds
  · rintro ⟨rfl, -⟩
    cases hfree

theorem exec_rdt_ref (s : State) (a : Byte) : exec (.rdt 0 a) s = .next (okEnd s ((s.refEntry a).setWidth 32)) :=
  exec_rdt_withoutTables (sp := .ref) rfl rfl a.isLt (Vector.getElem?_eq_getElem a.isLt)

theorem exec_rdt_canda (s : State) (a : Byte) :
    exec (.rdt 1 a) s = .next (okEnd s ((s.permEntry .canda a).setWidth 32)) :=
  exec_rdt_withoutTables (sp := .canda) rfl rfl a.isLt ((if_pos a.isLt).trans (read_eq_some_candEntry rfl s.canda a))

theorem exec_rdt_candb (s : State) (a : Byte) :
    exec (.rdt 2 a) s = .next (okEnd s ((s.permEntry .candb a).setWidth 32)) :=
  exec_rdt_withoutTables (sp := .candb) rfl rfl a.isLt ((if_pos a.isLt).trans (read_eq_some_candEntry rfl s.candb a))

theorem exec_rdt_log (htv : s.tv = true) (ha : a ≠ 0) (hv : Memory.read .log s.log a.toNat = some v) :
    exec (.rdt 3 a) s = .next (okEnd s (v.setWidth 32)) :=
  exec_rdt_of_spaceEntry (sp := .log) rfl
    (rdtRefusal_eq_none_iff.2 ⟨a.isLt, fun _ => htv, fun h => ha (BitVec.eq_of_toNat_eq h.2)⟩)
    ((if_pos a.isLt).trans hv)

theorem exec_rdt_exp (htv : s.tv = true) (hv : Memory.read .exp s.exp a.toNat = some v) :
    exec (.rdt 4 a) s = .next (okEnd s (v.setWidth 32)) :=
  exec_rdt_of_spaceEntry (sp := .exp) rfl
    (rdtRefusal_eq_none_iff.2 ⟨a.isLt, fun _ => htv, by simp⟩) ((if_pos a.isLt).trans hv)

theorem exec_rdt_tabS (h : a.toNat < 15) :
    exec (.rdt 5 a) s = .next (okEnd s ((s.cfg.tabS[a.toNat]).setWidth 32)) :=
  exec_rdt_withoutTables (sp := .tabS) rfl rfl h (Vector.getElem?_eq_getElem h)

theorem exec_rdt_tabK (h : a.toNat < 17) :
    exec (.rdt 6 a) s = .next (okEnd s ((tabKAt s.cfg ⟨a.toNat, h⟩).setWidth 32)) :=
  exec_rdt_withoutTables (sp := .tabK) rfl rfl h (dif_pos h)

theorem exec_rdt_sigma (h : a.toNat < 15) :
    exec (.rdt 7 a) s = .next (okEnd s ((s.cfg.sigma[a.toNat]).setWidth 32)) :=
  exec_rdt_withoutTables (sp := .sigma) rfl rfl h (Vector.getElem?_eq_getElem h)

theorem exec_rdt_kbit (h : a.toNat < 4) :
    exec (.rdt 8 a) s = .next (okEnd s ((kbitAt s.cfg ⟨a.toNat, h⟩).setWidth 32)) :=
  exec_rdt_withoutTables (sp := .kbit) rfl rfl h (dif_pos h)

/-! The refusals of RDT, in the order of R64. -/

theorem exec_rdt_illegalSpace (h : 8 < c.toNat) : exec (.rdt c a) s = .next (errEnd s 3) := by
  simp only [exec, execRdt, spaceOf_eq_none_iff.2 h]
  rfl

theorem exec_rdt_of_rdtRefusal (hsp : spaceOf c = some sp) (he : rdtRefusal s sp a.toNat = some e) :
    exec (.rdt c a) s = .next (errEnd s (errCode e)) := by
  rw [← refuse_eq_errEnd]
  simp only [exec, execRdt, hsp, he]

theorem exec_rdt_outOfRange (hsp : spaceOf c = some sp) (h : spaceLen sp ≤ a.toNat) :
    exec (.rdt c a) s = .next (errEnd s 4) :=
  exec_rdt_of_rdtRefusal (e := .range) hsp (if_pos h)

theorem exec_rdt_notab (hsp : spaceOf c = some sp) (hlen : a.toNat < spaceLen sp)
    (hneeds : spaceNeedsTables sp = true) (htv : s.tv = false) : exec (.rdt c a) s = .next (errEnd s 5) := by
  refine exec_rdt_of_rdtRefusal (e := .notab) hsp ?_
  rw [rdtRefusal, if_neg (not_le.2 hlen), if_pos (by simp [hneeds, htv])]

theorem exec_rdt_undef (htv : s.tv = true) : exec (.rdt 3 0) s = .next (errEnd s 6) := by
  refine exec_rdt_of_rdtRefusal (sp := .log) (e := .undef) rfl ?_
  rw [rdtRefusal, if_neg (by decide), if_neg (by simp [htv]), if_pos ⟨rfl, rfl⟩]

/-- Settles O54: one lemma for each space and for each refusal, and the format AC, which leaves `A` and `C` free. -/
theorem rdtResult : Obligations.RdtResult := by
  refine ⟨fun s a => ?spaces, fun s c a => ?refusals, fun s rest a b c hin => ?word⟩
  case spaces =>
    exact ⟨exec_rdt_ref s a, exec_rdt_canda s a, exec_rdt_candb s a, fun _ => exec_rdt_log, fun _ => exec_rdt_exp,
      exec_rdt_tabS, fun h => tabKAt_of_lt s.cfg h ▸ exec_rdt_tabK (Nat.lt_succ_of_lt h), exec_rdt_tabK (by decide),
      exec_rdt_sigma, exec_rdt_kbit (by decide), exec_rdt_kbit (by decide), exec_rdt_kbit (by decide),
      exec_rdt_kbit (by decide)⟩
  case refusals =>
    refine ⟨exec_rdt_illegalSpace, ?range, ?notab, exec_rdt_undef⟩
    case range =>
      rintro (⟨rfl | rfl, h⟩ | ⟨rfl, h⟩ | ⟨rfl, h⟩)
      · exact exec_rdt_outOfRange (sp := .tabS) rfl h
      · exact exec_rdt_outOfRange (sp := .sigma) rfl h
      · exact exec_rdt_outOfRange (sp := .tabK) rfl h
      · exact exec_rdt_outOfRange (sp := .kbit) rfl h
    case notab =>
      rintro (rfl | rfl) htv
      · exact exec_rdt_notab (sp := .log) rfl a.isLt rfl htv
      · exact exec_rdt_notab (sp := .exp) rfl a.isLt rfl htv
  case word =>
    rw [step_of_legalOpcode (op := .rdt) (P := b = 0) hin (by rw [fieldOpc_packFields]; rfl)
      (by simp only [Opcode.format, Format.fieldsZero, fieldB_packFields])]
    simp only [Opcode.operands, fieldA_packFields, fieldC_packFields]

/-! ### NOP (R145) -/

/-- Settles O25: NOP does nothing but end, and the format N leaves no field free. -/
theorem nopResult : Obligations.NopResult := by
  refine ⟨fun s => rfl, fun s rest a b c hin => ?word⟩
  case word =>
    rw [step_of_legalOpcode (op := .nop) (P := a = 0 ∧ b = 0 ∧ c = 0) hin (by rw [fieldOpc_packFields]; rfl)
      (by simp only [Opcode.format, Format.fieldsZero, fieldA_packFields, fieldB_packFields, fieldC_packFields]; tauto)]
    split <;> rfl

/-! ### RDR (R148) -/

/-- The layout of R26, read from a byte: its two fields, with bits 3:1 masked off. -/
theorem packStatus_fields : ∀ b : Byte, packStatus (b.extractLsb' 4 4) (b.getLsbD 0) = b &&& 0xF1 := by decide +kernel

theorem readStatus_eq (s : State) : s.readStatus = s.status &&& 0xF1 := packStatus_fields s.status

theorem exec_rdr (h : regOf r = some reg) : exec (.rdr r) s = .next (okEnd s (s.readReg reg)) := by
  rw [← complete_eq_okEnd]
  simp only [exec, execRdr, h]

theorem exec_rdr_illegalNumber (h : 4 < r.toNat) : exec (.rdr r) s = .next (errEnd s 3) := by
  simp only [exec, execRdr, regOf_eq_none_iff.2 h]
  rfl

/-- Settles O56: each number reads its register, of which only `STATUS` is masked, and the format A leaves `A` free. -/
theorem rdrResult : Obligations.RdrResult := by
  refine ⟨fun s => ⟨?status, exec_rdr (reg := .res) rfl, exec_rdr (reg := .miscnt) rfl, exec_rdr (reg := .x) rfl,
    exec_rdr (reg := .z) rfl, fun r => exec_rdr_illegalNumber⟩, fun s rest r b c hin => ?word⟩
  case status =>
    rw [← readStatus_eq]
    exact exec_rdr (reg := .status) rfl
  case word =>
    rw [step_of_legalOpcode (op := .rdr) (P := b = 0 ∧ c = 0) hin (by rw [fieldOpc_packFields]; rfl)
      (by simp only [Opcode.format, Format.fieldsZero, fieldB_packFields, fieldC_packFields, and_comm])]
    simp only [Opcode.operands, fieldA_packFields]

end Sys2Proof.Machine

/-! PROOFS of the encoding (spec/30_encoding.md sections 3, 4 and 6): `encode` and `decode` are inverse to each other, and a
word that is no command is refused (R65). -/

namespace Sys2Proof

variable {i : Instr} {w : Word} {op : Opcode}

/-! ### A command and its word (R61 to R63) -/

theorem encodeFields (i : Instr) : Laws.EncodeFields.Statement i := by
  cases i with
  | nop => exact Laws.EncodeFields.nop
  | bldtab => exact Laws.EncodeFields.bldtab
  | mulx a => exact Laws.EncodeFields.mulx a
  | gfmul a b => exact Laws.EncodeFields.gfmul a b
  | cdir => exact Laws.EncodeFields.cdir
  | cdlog => exact Laws.EncodeFields.cdlog
  | kappa v => exact Laws.EncodeFields.kappa v
  | check c label => exact Laws.EncodeFields.check c label
  | rotd c => exact Laws.EncodeFields.rotd c
  | rotdx c x => exact Laws.EncodeFields.rotdx c x
  | rdt c index => exact Laws.EncodeFields.rdt c index
  | rdr reg => exact Laws.EncodeFields.rdr reg

/-- Each operand stands in the field that the opcode reads it from. -/
theorem operands_encode (i : Instr) : i.opcode.operands (encode i) = i := by
  cases i <;>
    simp only [Instr.opcode, Opcode.operands, encode, fieldA_packFields, fieldB_packFields, fieldC_packFields]

theorem eq_ofNat_number_of_ofByte {o : Byte} (h : Opcode.ofByte o = some op) : o = BitVec.ofNat 8 op.number := by
  rw [← toNat_of_mem_ofByte o op h, BitVec.ofNat_toNat, BitVec.setWidth_eq]

/-- The word of a command is its opcode's number, its operands and zeros. -/
theorem encode_operands (hop : Opcode.ofByte (fieldOpc w) = some op) (hzero : op.format.fieldsZero w) :
    encode (op.operands w) = w := by
  conv_rhs => rw [← packFields_fields w, eq_ofNat_number_of_ofByte hop]
  cases op <;> simp only [Opcode.format, Format.fieldsZero] at hzero <;>
    simp only [Opcode.operands, encode, Opcode.number, hzero] <;> rfl

end Sys2Proof

namespace Sys2Proof.Machine

/-- Settles O2: the fields of the word give the opcode, pass the must-be-zero check and hold the operands. -/
theorem encodeThenDecode : Obligations.EncodeThenDecode := by
  intro i
  obtain ⟨hop, hmbz⟩ := encodeFields i
  exact decode_eq_ok_iff.2 ⟨i.opcode, hop, hmbz, operands_encode i⟩

/-- Settles O3: the opcode byte is the one of its opcode, and the must-be-zero fields are the fields without operand. -/
theorem decodeThenEncode : Obligations.DecodeThenEncode := by
  intro w i h
  obtain ⟨op, hop, hmbz, rfl⟩ := decode_eq_ok_iff.1 h
  exact encode_operands hop ((and_mbz_eq_zero_iff op.format).1 hmbz)

/-- Settles O1: each example word is the encoding of its command. -/
theorem exampleWordsDecode : Obligations.ExampleWordsDecode :=
  ⟨encodeThenDecode .nop, encodeThenDecode .bldtab, encodeThenDecode (.mulx 0x80), encodeThenDecode (.gfmul 0x57 0x83),
    encodeThenDecode .cdir, encodeThenDecode .cdlog, encodeThenDecode (.kappa 1), encodeThenDecode (.check 1 0x01),
    encodeThenDecode (.rotd 0), encodeThenDecode (.rotdx 0 0x81), encodeThenDecode (.rdt 4 8),
    encodeThenDecode (.rdr 2)⟩

/-- Settles O6, by the decoder's two refusals. -/
theorem undecodedWordIsRefused : Obligations.UndecodedWordIsRefused := by
  intro s w rest hin
  rw [step_cmd hin]
  exact ⟨fun hopc => runWord_of_decode_error (e := .illop) (decode_eq_error_iff.2 (.inl ⟨hopc, rfl⟩)),
    fun hres => runWord_of_decode_error (e := .rsvd) (decode_eq_error_iff.2 (.inr ⟨hres, rfl⟩))⟩

end Sys2Proof.Machine

/-! PROOFS of the invariant of the block (spec/10_state.md sections 4 to 6, spec/20_memory.md section 1): the state after
reset meets it, and every step keeps it. -/

namespace Sys2Proof.Machine

variable {s t : State} {i : Instr} {c : Config}

/-! ### Reset (R30, R190) -/

theorem defaultConfig_wf : defaultConfig.wf := by decide +kernel

/-- The reset values meet the invariant with any constants that R18 allows, whatever the host sends. -/
theorem inv_reset (hc : c.wf) (l : List HostInput) : Inv { State.reset with cfg := c, input := l } where
  cfgWf := hc
  logWf := wf_nil
  expWf := wf_nil
  candaWf := wf_nil
  candbWf := wf_nil
  tablesEmpty _ := ⟨rfl, rfl⟩
  tablesBuilt htv := absurd (show (0x00 : Byte).getLsbD 0 = true from htv) (by decide)
  statusReserved := by show (0x00 : Byte).extractLsb' 1 3 = 0; decide
  errLegal := by show ((0x00 : Byte).extractLsb' 4 4).toNat ≤ 6; decide
  miscntBound := by show (0x00000000 : Word).toNat ≤ 256; decide
  diagKinds _ hr := absurd hr List.not_mem_nil
  lastResponse _ hr := by cases hr

/-- Settles O11: the default `SIGMA` is a permutation, and no table lists a cell. -/
theorem resetMeetsInvariant : Obligations.ResetMeetsInvariant :=
  ⟨inv_reset defaultConfig_wf [], contentsFinite_hardReset State.reset⟩

theorem Inv.hardReset (h : Inv s) : Inv (hardReset s) := inv_reset h.cfgWf s.input

/-! ### A refused word (R162) -/

/-- A command adds its response at the end of the list, where it is the last one. -/
theorem lastResponse_of_rsp {l : List Response} (h : t.rsp = l ++ [⟨t.err, t.res⟩]) :
    ∀ r, t.rsp.getLast? = some r → r.st = t.err ∧ r.res = t.res := by
  intro r hr
  rw [h, List.getLast?_concat] at hr
  cases hr
  exact ⟨rfl, rfl⟩

theorem Inv.refuse (h : Inv s) (e : Err) : Inv (s.refuse e) :=
  { h with
    tablesEmpty := fun htv => h.tablesEmpty ((refuse_tv s e).symm.trans htv)
    tablesBuilt := fun htv => h.tablesBuilt ((refuse_tv s e).symm.trans htv)
    statusReserved := packStatus_reserved _ _
    errLegal := by rw [refuse_err]; exact errCode_le e
    lastResponse := lastResponse_of_rsp (l := s.rsp) (by rw [refuse_rsp, refuse_err, refuse_res]) }

/-! ### The tables after a command (R20, R21, R81, R82) -/

/-- `LOG[0]` holds no value, before and after a BLDTAB (R20). -/
theorem Inv.read_log_zero (h : Inv s) : Memory.read .log s.log 0 = none := by
  cases htv : s.tv with
  | false =>
    obtain ⟨-, hempty⟩ := h.tablesEmpty htv
    rw [hempty]
    rfl
  | true => exact (h.tablesBuilt htv).logZero

/-- `LOG` and `EXP` are in canonical form, and `TV` tells whether they are empty or built. -/
structure TablesInv (s : State) : Prop where
  logWf : Memory.wf .log s.log
  expWf : Memory.wf .exp s.exp
  tablesEmpty : s.tv = false → s.exp = [] ∧ s.log = []
  tablesBuilt : s.tv = true → TablesBuilt s.exp s.log

theorem exec_tablesInv (hs : Inv s) (h : exec i s = .next t) : TablesInv t := by
  by_cases hi : i = .bldtab
  · subst hi
    have htv := exec_bldtab_tv h
    obtain ⟨lw, hwalk, hrun⟩ := exec_bldtab_walk s
    cases hrun.symm.trans h
    exact ⟨hwalk.logWf hs.logWf, hwalk.expWf hs.expWf, fun hfalse => by simp [hfalse] at htv,
      fun _ => hwalk.tablesBuilt hs.read_log_zero⟩
  · obtain ⟨-, -, htables, -⟩ := onlyTheNamedCommandWrites i s t h
    obtain ⟨hlog, hexp, htv⟩ := htables hi
    exact ⟨hlog ▸ hs.logWf, hexp ▸ hs.expWf, by rw [hlog, hexp, htv]; exact hs.tablesEmpty,
      by rw [hlog, hexp, htv]; exact hs.tablesBuilt⟩

theorem exec_canda_wf (hs : Inv s) (h : exec i s = .next t) : Memory.wf .canda t.canda := by
  by_cases hi : i = .cdir
  · subst hi
    cases h
    obtain ⟨hwalk, -⟩ := constructDirect_at s.cfg s.canda
    exact hwalk.wf hs.candaWf
  · obtain ⟨-, -, -, -, hframe, -⟩ := onlyTheNamedCommandWrites i s t h
    obtain ⟨-, hkept⟩ := hframe hi
    rw [hkept]
    exact hs.candaWf

theorem exec_candb_wf (hs : Inv s) (h : exec i s = .next t) : Memory.wf .candb t.candb := by
  by_cases hi : i = .cdlog
  · subst hi
    cases htv : s.tv with
    | true =>
      obtain ⟨m, hm, -, -, hwf⟩ := constructDecomposed_ok hs.cfgWf (hs.tablesBuilt htv) s.candb
      cases (exec_cdlog_of_ok htv hm).symm.trans h
      exact hwf hs.candbWf
    | false =>
      cases (exec_cdlog_notab htv).symm.trans h
      exact hs.candbWf
  · obtain ⟨-, -, -, -, -, hkept, -⟩ := onlyTheNamedCommandWrites i s t h
    rw [hkept hi]
    exact hs.candbWf

/-! ### `MISCNT` after a command (R23) -/

theorem mem_permSelectors_of_mem_permSpaceOf : ∀ c : Byte, ∀ t ∈ permSpaceOf c, (c, t) ∈ permSelectors := by
  decide +kernel

/-- A selector names a table or is illegal (R66). -/
theorem permSelectors_cases (c : Byte) : (∃ t, (c, t) ∈ permSelectors) ∨ 2 < c.toNat := by
  cases h : permSpaceOf c with
  | none => exact .inr (permSpaceOf_eq_none_iff.1 h)
  | some t => exact .inl ⟨t, mem_permSelectors_of_mem_permSpaceOf c t h⟩

theorem exec_miscnt_le (hs : Inv s) (h : exec i s = .next t) : t.miscnt.toNat ≤ 256 := by
  by_cases hi : ∃ c label, i = .check c label
  · obtain ⟨c, label, rfl⟩ := hi
    obtain ⟨p, hc⟩ | hc := permSelectors_cases c
    · cases (exec_check hc).symm.trans h
      exact (mismatchCount_toNat s p).trans_le (length_mismatches_le s p)
    · cases (exec_check_illegalSelector hc).symm.trans h
      exact hs.miscntBound
  · obtain ⟨-, -, -, -, -, -, hkept, -⟩ := onlyTheNamedCommandWrites i s t h
    rw [hkept fun c label hcl => hi ⟨c, label, hcl⟩]
    exact hs.miscntBound

/-! ### The invariant -/

/-- The kinds of R27 stay the only ones. -/
theorem exec_diagKinds (hs : Inv s) (h : exec i s = .next t) :
    ∀ r ∈ t.diag, recordKind r = 0x01 ∨ recordKind r = 0x02 ∨ recordKind r = 0x03 := by
  obtain ⟨d, hd, hkinds⟩ := exec_diag h
  intro r hr
  rw [hd, List.mem_append] at hr
  exact hr.elim (hs.diagKinds r) (hkinds r)

/-- Every command keeps the invariant. -/
theorem Inv.exec (hs : Inv s) (h : exec i s = .next t) : Inv t :=
  { exec_tablesInv hs h with
    cfgWf := by rw [exec_cfg h]; exact hs.cfgWf
    candaWf := exec_canda_wf hs h
    candbWf := exec_candb_wf hs h
    statusReserved := exec_status_reserved h
    errLegal := exec_err_le h
    miscntBound := exec_miscnt_le hs h
    diagKinds := exec_diagKinds hs h
    lastResponse := lastResponse_of_rsp (exec_rsp h) }

/-- Settles O12: by the cases of a step. -/
theorem stepKeepsInvariant : Obligations.StepKeepsInvariant := by
  intro s t hs h
  obtain ⟨-, rfl⟩ | ⟨rest, -, rfl⟩ | ⟨w, rest, e, -, -, rfl⟩ | ⟨w, rest, i, -, -, hexec⟩ := step_cases h
  · exact hs
  · exact (hs.withInput rest).hardReset
  · exact (hs.withInput rest).refuse e
  · exact (hs.withInput rest).exec hexec

end Sys2Proof.Machine

/-! PROOFS of the family 60_exceptions.md: command sequences (spec/60_exceptions.md rule R168), what a refusal leaves (R162)
and which codes there are (R163); and the idle step and the hard reset (R183, spec/70_reset_and_hazards.md rules R190 and
R191). -/

namespace Sys2Proof.Machine

variable {s t : State} {i : Instr} {w : Word} {rest : List HostInput} {inp : HostInput}

/-! ### Nothing sent, and a reset pulse -/

/-- Settles O7, by the step's equation for an empty list of inputs. -/
theorem idleKeepsState : Obligations.IdleKeepsState := fun _ => step_idle

/-- Settles O8: after a reset no table lists a cell. -/
theorem hardResetValues : Obligations.HardResetValues := fun _ _ hin =>
  ⟨_, step_rst hin, rfl, rfl, fun _ _ => ⟨read_nil, read_nil, read_nil, read_nil⟩, rfl, rfl, rfl, rfl, rfl, rfl⟩

/-! ### A whole sequence of inputs (R168, R198) -/

theorem exec_input (h : exec i s = .next t) : t.input = s.input := by
  obtain ⟨-, hinput, -⟩ := onlyTheNamedCommandWrites i s t h
  exact hinput

/-- A word on `CMD` is refused by the decoder, or its command answers. -/
theorem step_cmd_cases (hin : s.input = .cmd w :: rest) (hstep : step s = .next t) :
    (∃ e, decode w = .error e ∧ t = ({ s with input := rest } : State).refuse e) ∨
    (∃ i, decode w = .ok i ∧ exec i { s with input := rest } = .next t) := by
  rw [step_cmd hin] at hstep
  cases hdec : decode w with
  | error e =>
    cases (runWord_of_decode_error hdec).symm.trans hstep
    exact .inl ⟨e, rfl, rfl⟩
  | ok i => exact .inr ⟨i, rfl, (runWord_of_decode_ok hdec).symm.trans hstep⟩

/-- A step takes the next input away. -/
theorem step_input (hin : s.input = inp :: rest) (hstep : step s = .next t) : t.input = rest := by
  cases inp with
  | rst =>
    cases (step_rst hin).symm.trans hstep
    rfl
  | cmd w =>
    obtain ⟨e, -, rfl⟩ | ⟨i, -, hexec⟩ := step_cmd_cases hin hstep
    · exact refuse_input _ e
    · exact exec_input hexec

/-- A word, refused by the decoder or run, is given one response (R11). -/
theorem step_rsp_length (hin : s.input = .cmd w :: rest) (hstep : step s = .next t) :
    t.rsp.length = s.rsp.length + 1 := by
  obtain ⟨e, -, rfl⟩ | ⟨i, -, hexec⟩ := step_cmd_cases hin hstep
  · rw [refuse_rsp, List.length_append, List.length_singleton]
  · rw [exec_rsp hexec, List.length_append, List.length_singleton]

theorem run_succ (hstep : step s = .next t) (k : Nat) :
    Host.Core.run Sys2Proof.core (k + 1) s = Host.Core.run Sys2Proof.core k t := by
  have hcore : Sys2Proof.core.step s = .next t := hstep
  simp only [Host.Core.run, hcore]

/-- Settles O14: by induction on what the host still sends. A step from the invariant gives a next state, which meets it
and has one input less. -/
theorem commandSequencesRunToTheirEnd : Obligations.CommandSequencesRunToTheirEnd := by
  intro s hs
  generalize hin : s.input = l
  induction l generalizing s with
  | nil => exact ⟨s, rfl, hin, hs, fun _ => rfl⟩
  | cons inp rest ih =>
    obtain ⟨t, hstep⟩ := step_next hs
    obtain ⟨u, hrun, hempty, hu, hcount⟩ := ih t (stepKeepsInvariant s t hs hstep) (step_input hin hstep)
    refine ⟨u, (run_succ hstep rest.length).trans hrun, hempty, hu, fun hwords => ?count⟩
    case count =>
      obtain ⟨⟨w, rfl⟩, hrest⟩ := List.forall_mem_cons.1 hwords
      rw [hcount hrest, step_rsp_length hin hstep, List.length_cons]
      omega

/-! ### What a refusal leaves (R162) -/

/-- Settles O18: a command that ends with a code has been refused, and so has a word that the decoder refuses. -/
theorem refusedCommandChangesNothingElse : Obligations.RefusedCommandChangesNothingElse := by
  refine ⟨fun i s t => eq_errEnd_of_err_ne_zero, fun s t w rest hin hstep hne => ?word⟩
  case word =>
    obtain ⟨e, -, rfl⟩ | ⟨i, -, hexec⟩ := step_cmd_cases hin hstep
    · rw [refuse_err]
      exact refuse_eq_errEnd _ e
    · exact eq_errEnd_of_err_ne_zero hexec hne

/-! ### Which command can end with which code (R163) -/

/-- Every command can complete. -/
theorem ok_mem_possibleCodes (i : Instr) : okCode ∈ possibleCodes i := by
  cases i <;> exact List.mem_cons_self

theorem exec_err_mem_possibleCodes (h : exec i s = .next t) : t.err ∈ possibleCodes i := by
  obtain ⟨e, he, rfl⟩ | ⟨u, r, -, rfl⟩ := exec_ends h
  · rw [refuse_err]; exact he
  · rw [complete_err]; exact ok_mem_possibleCodes i

/-- The row of R163 for an opcode holds the codes of its command. -/
theorem possibleCodes_subset_codesOfOpcode (hdec : decode w = .ok i) :
    possibleCodes i ⊆ codesOfOpcode (fieldOpc w).toNat := by
  obtain ⟨op, hop, -, rfl⟩ := decode_eq_ok_iff.1 hdec
  rw [toNat_of_mem_ofByte _ op hop]
  cases op <;> simp [Opcode.operands, possibleCodes, Opcode.number, codesOfOpcode]

/-- `ERR_RSVD` is in every row. -/
theorem rsvd_mem_codesOfOpcode (o : Nat) : errCode .rsvd ∈ codesOfOpcode o := by
  unfold codesOfOpcode
  split <;> decide

theorem step_err_mem_codesOfOpcode (hin : s.input = .cmd w :: rest) (hstep : step s = .next t) :
    if 0x0B < (fieldOpc w).toNat then t.err = 1 else t.err ∈ codesOfOpcode (fieldOpc w).toNat := by
  obtain ⟨e, hdec, rfl⟩ | ⟨i, hdec, hexec⟩ := step_cmd_cases hin hstep
  · rw [refuse_err]
    obtain ⟨hopc, rfl⟩ | ⟨hres, rfl⟩ := decode_eq_error_iff.1 hdec
    · rw [if_pos hopc, errCode]
    · rw [if_neg (not_lt.2 (opc_le_of_reservedFieldSet hres))]
      exact rsvd_mem_codesOfOpcode _
  · obtain ⟨-, -, haccepted⟩ := decoderVerdict w
    obtain ⟨hopc, -⟩ := haccepted.1 ⟨i, hdec⟩
    rw [if_neg (not_lt.2 hopc)]
    exact possibleCodes_subset_codesOfOpcode hdec (exec_err_mem_possibleCodes hexec)

/-- The fields `C`, `B` and `A` of a word with the opcode `o` that ends with `code`, where R163 allows it: all fields set
for `ERR_RSVD`, a selector or register number 255 for `ERR_SEL`, the index 255 of `TAB_S` for `ERR_RANGE`, `LOG[0]` for
`ERR_NOTAB` and `ERR_UNDEF`. -/
def fieldsEndingWith (o : Byte) (code : Code) : Byte × Byte × Byte :=
  match code.toNat with
  | 2 => (0xFF, 0xFF, 0xFF)
  | 3 => if o = 0x0B then (0, 0, 0xFF) else (0xFF, 0, 0)
  | 4 => (5, 0, 0xFF)
  | 5 => if o = 0x0A then (3, 0, 0) else (0, 0, 0)
  | 6 => (3, 0, 0)
  | _ => (0, 0, 0)

/-- The word of `fieldsEndingWith`. -/
def wordEndingWith (o : Byte) (code : Code) : Word :=
  let (c, b, a) := fieldsEndingWith o code
  packFields o c b a

theorem fieldOpc_wordEndingWith (o : Byte) (code : Code) : fieldOpc (wordEndingWith o code) = o :=
  fieldOpc_packFields ..

/-- `ERR_NOTAB` is the code of a word before a BLDTAB, the others are codes of words after one. -/
theorem verdict_wordEndingWith : ∀ o : Byte, o.toNat ≤ 0x0B → ∀ code ∈ codesOfOpcode o.toNat,
    verdict (wordEndingWith o code) (code != 5) = code := by decide +kernel

/-- A state of the invariant with `TV` clear is the one after reset, one with `TV` set that after a BLDTAB. -/
theorem exists_inv_tv (tv : Bool) : ∃ s, Inv s ∧ s.tv = tv := by
  have hreset := inv_reset defaultConfig_wf []
  cases tv with
  | false => exact ⟨_, hreset, hardReset_tv State.reset⟩
  | true =>
    obtain ⟨t, hexec⟩ := exec_next hreset .bldtab
    exact ⟨t, hreset.exec hexec, exec_bldtab_tv hexec⟩

theorem errEnd_err (s : State) (code : Code) : (errEnd s code).err = code := packStatus_err _ _

/-- From the invariant a step on a word ends with its verdict (R64, R166). -/
theorem step_err_eq_verdict (hs : Inv s) (hin : s.input = .cmd w :: rest) :
    ∃ t, step s = .next t ∧ t.err = verdict w s.tv := by
  obtain ⟨hrefused, hcompleted⟩ := firstFailingCheckDecidesTheCode s w rest hs hin
  by_cases hv : verdict w s.tv = 0
  · obtain ⟨i, t, -, -, hstep, herr⟩ := hcompleted hv
    exact ⟨t, hstep, herr.trans hv.symm⟩
  · exact ⟨_, hrefused hv, errEnd_err _ _⟩

/-- Settles O20: a decoded command ends with a code of its row; and each code is the verdict of a word, sent before or after
a BLDTAB. -/
theorem codesEachCommandCanEndWith : Obligations.CodesEachCommandCanEndWith := by
  refine ⟨fun s t w rest => step_err_mem_codesOfOpcode, fun o ho code hcode => ?reached⟩
  case reached =>
    obtain ⟨s, hs, htv⟩ := exists_inv_tv (code != 5)
    obtain ⟨t, hstep, herr⟩ := step_err_eq_verdict (hs.withInput [.cmd (wordEndingWith o code)]) rfl
    have hverdict := verdict_wordEndingWith o ho code hcode
    rw [← htv] at hverdict
    exact ⟨_, t, wordEndingWith o code, rfl, fieldOpc_wordEndingWith o code, hstep, herr.trans hverdict⟩

end Sys2Proof.Machine

/-! PROOFS of the LFSR step and of what BLDTAB, CDIR and kappa give: the order of the generator (spec/41_gf28_mult.md rules
R90 and R92), the example of spec/40_gf28_tables.md rule R80, the walk of spec/42_lfsr_constructor.md rule R100, and the
affine map of spec/43_dlog_decomposer.md rule R110. -/

namespace Sys2Proof.Machine

variable {s : State} {x : Byte} {n e : Nat}

/-! ### The LFSR step (R90, R92) -/

theorem iterate_mulx_genPow (n e : Nat) : mulx^[n] (genPow e) = genPow (e + n) := by
  rw [genPow, genPow, ← Function.iterate_add_apply, Nat.add_comm]

/-- A power below 255 that fixes one power of the generator would be one. -/
theorem iterate_mulx_genPow_ne (h0 : 0 < n) (h255 : n < 255) : mulx^[n] (genPow e) ≠ genPow e := by
  rw [iterate_mulx_genPow]
  intro h
  refine genPow_ne_one ⟨n - 1, by omega⟩ ?_
  rw [show n - 1 + 1 = n by omega]
  exact genPow_cancel e n h

/-- Settles O27: a non-zero byte is a power of the generator, whose order is 255. -/
theorem mulxHasOrder255 : Obligations.MulxHasOrder255 := by
  refine ⟨fun _ => rfl, by decide, Finite.injective_iff_bijective.1 mulx_injective, fun x hx => ⟨mulx_ne_zero hx, ?_⟩⟩
  obtain ⟨e, -, -, rfl⟩ := exists_genPow hx
  exact ⟨(iterate_mulx_genPow 255 e).trans (genPow_add_255 e), fun _ => iterate_mulx_genPow_ne⟩

/-! ### The example of BLDTAB (R80) -/

theorem genPow_upTo_eight :
    (List.range 9).map genPow = [0x01, 0x02, 0x04, 0x08, 0x10, 0x20, 0x40, 0x80, 0x1D] := by decide

/-- Settles O33: the powers 0 to 8 and the exponents 1, 8 and 255 of the walk. -/
theorem bldtabExampleValues : Obligations.BldtabExampleValues := by
  intro s
  obtain ⟨lw, h, hexec⟩ := exec_bldtab_walk s
  have hexp : (List.range 9).map (Memory.read .exp lw.exp) = ((List.range 9).map genPow).map some := by
    rw [List.map_map]
    exact List.map_congr_left fun n hn => h.exp_eq_genPow (by have := List.mem_range.1 hn; omega)
  refine ⟨_, hexec, hexp.trans (by rw [genPow_upTo_eight]; rfl), ?two, ?feedback, ?one⟩
  case two => exact h.log_eq_exponent (n := 1) (by decide) (by decide)
  case feedback => exact h.log_eq_exponent (n := 8) (by decide) (by decide)
  case one =>
    have hone : Memory.read .log lw.log (genPow 255).toNat = some 255 := h.log_eq_exponent (by decide) le_rfl
    rwa [genPow_255] at hone

/-! ### CDIR (R100, R101) -/

/-- CDIR completes in every state: `X` has gone round all 255 powers, and `Z` holds the last reset of the walk. -/
theorem exec_cdir (s : State) :
    exec .cdir s = .next (okEnd
      { s with canda := (constructDirect s.cfg s.canda).canda, x := 0x01, z := s.cfg.tabK[14] } 0) := by
  obtain ⟨hwalk, hz⟩ := constructDirect_at s.cfg s.canda
  have hx : (constructDirect s.cfg s.canda).x = 0x01 := hwalk.x.trans genPow_255
  have hz14 : (constructDirect s.cfg s.canda).z = s.cfg.tabK[14] := hz.trans (tabKAt_of_lt s.cfg (by decide))
  rw [← hx, ← hz14]
  rfl

/-- Settles O36: the walk ends in the closed form, and the word has no operand field. -/
theorem cdirResult : Obligations.CdirResult := by
  refine ⟨fun s => ⟨_, exec_cdir s, constructDirect_directBuilt s.cfg s.canda⟩, fun s rest a b c hin => ?word⟩
  case word =>
    refine step_of_legalOpcode (op := .cdir) hin (by rw [fieldOpc_packFields]; rfl) ?_
    simp only [Opcode.format, Format.fieldsZero, fieldA_packFields, fieldB_packFields, fieldC_packFields]
    tauto

/-! ### kappa (R110) -/

theorem kappaTerm_xor (c : Config) (a b : Byte) (k : Fin 4) :
    kappaTerm c (a ^^^ b) k = kappaTerm c a k ^^^ kappaTerm c b k := by
  simp only [kappaTerm, BitVec.getLsbD_xor]
  cases a.getLsbD k <;> cases b.getLsbD k <;> simp

/-- Only the bits 3:0 have terms. -/
theorem kappaTerm_and_low (c : Config) (v : Byte) (k : Fin 4) : kappaTerm c (v &&& 0x0F) k = kappaTerm c v k := by
  have hlow : ∀ k : Fin 4, (0x0F : Byte).getLsbD k = true := by decide
  rw [kappaTerm, BitVec.getLsbD_and, hlow, Bool.and_true, kappaTerm]

theorem kappa_and_low (c : Config) (v : Byte) : kappa c (v &&& 0x0F) = kappa c v := by
  simp only [kappa, kappaTerm_and_low]

/-- The terms are linear, so the constants of two values leave one over. -/
theorem kappa_xor (c : Config) (a b : Byte) : kappa c (a ^^^ b) = kappa c a ^^^ kappa c b ^^^ KAPPA_OFF := by
  calc kappa c (a ^^^ b) = (KAPPA_OFF ^^^ KAPPA_OFF) ^^^ kappa c (a ^^^ b) := by rw [BitVec.xor_self, BitVec.zero_xor]
    _ = kappa c a ^^^ kappa c b ^^^ KAPPA_OFF := by simp only [kappa, kappaTerm_xor]; ac_rfl

theorem kappa_zero (c : Config) : kappa c 0 = 0xDC := by
  simp [kappa, kappaTerm, KAPPA_OFF]

/-- `KBIT[0]` is the source's own constant (R17). -/
theorem kappa_one (c : Config) : kappa c 1 = 0xCE := by
  simp [kappa, kappaTerm, kbitAt, KBIT0, KAPPA_OFF]

/-- The sixteen values of R110 under the default constants. -/
theorem kappa_default_values :
    (List.range 16).map (fun v => kappa defaultConfig (BitVec.ofNat 8 v)) =
      [0xDC, 0xCE, 0xFA, 0xE8, 0xF8, 0xEA, 0xDE, 0xCC, 0xEC, 0xFE, 0xCA, 0xD8, 0xC8, 0xDA, 0xEE, 0xFC] := by
  decide +kernel

/-- The sixteen values are distinct. -/
theorem kappa_default_injOn {a b : Byte} (ha : a.toNat < 16) (hb : b.toNat < 16)
    (h : kappa defaultConfig a = kappa defaultConfig b) : a = b := by
  have hnodup : ((List.range 16).map (fun v => kappa defaultConfig (BitVec.ofNat 8 v))).Nodup := by
    rw [kappa_default_values]
    decide
  refine BitVec.eq_of_toNat_eq (List.inj_on_of_nodup_map hnodup (List.mem_range.2 ha) (List.mem_range.2 hb) ?_)
  simpa only [BitVec.ofNat_toNat, BitVec.setWidth_eq] using h

/-- Settles O39: term by term; `kappa` does not read `TAB_K[16]`, the one constant that the defaults leave open. -/
theorem kappaIsAffine : Obligations.KappaIsAffine := by
  refine ⟨fun c v => (kappa_and_low c v).symm, kappa_xor, fun c => ⟨kappa_zero c, kappa_one c⟩, ?defaults⟩
  case defaults =>
    rintro c ⟨v, rfl⟩
    exact ⟨kappa_default_values, fun a b => kappa_default_injOn⟩

end Sys2Proof.Machine

/-! PROOFS of the rotate and of ROTDX (spec/45_rotational_diff.md rules R135 and R138), and that an error code is read once
(spec/46_access_and_system.md rule R148). -/

namespace Sys2Proof.Machine

variable {s : State} {c x : Byte} {t : PermSpace}

/-! ### The rotate (R135) -/

/-- The rotate and the LFSR step shift alike: they differ in what a bit 7 that is shifted out sets. -/
theorem rotl1_eq_xor : ∀ x : Byte, rotl1 x = (x <<< 1) ^^^ (if x.getLsbD 7 then 0x01 else 0x00) := by decide +kernel

theorem getLsbD_rotl1_zero (x : Byte) : (rotl1 x).getLsbD 0 = x.getLsbD 7 := by
  rw [rotl1_eq_rotateLeft, BitVec.getLsbD_rotateLeft]
  simp

theorem rotl1_ne_mulx_iff (x : Byte) : rotl1 x ≠ mulx x ↔ x.getLsbD 7 = true := by
  rw [rotl1_eq_xor, mulx, Ne, BitVec.xor_right_inj]
  cases x.getLsbD 7 <;> decide

theorem rotl1_iterate_eight : ∀ x : Byte, rotl1^[8] x = x := by decide +kernel

/-- Settles O48: bit by bit, with the fixed points of R136, and beside the LFSR step by `rotl1_eq_xor`. -/
theorem rotlMovesEveryBitUp : Obligations.RotlMovesEveryBitUp := fun x =>
  ⟨fun _ => getLsbD_rotl1_succ, getLsbD_rotl1_zero x, rotl1_eq_self_iff, rotl1_iterate_eight x, rotl1_ne_mulx_iff x⟩

/-! ### ROTDX (R138) -/

theorem exec_rotdx (h : (c, t) ∈ permSelectors) :
    exec (.rotdx c x) s = .next (okEnd s ((rotdiff s t x).setWidth 32)) := by
  rw [← complete_eq_okEnd]
  simp only [exec, execRotdx, permSpaceOf_eq_some_of_mem h, zext32]

theorem exec_rotdx_illegalSelector (h : 2 < c.toNat) : exec (.rotdx c x) s = .next (errEnd s 3) := by
  simp only [exec, execRotdx, permSpaceOf_eq_none_iff.2 h]
  rfl

/-- Settles O52: the difference by `rotl1_eq_rotateLeft`, the check of the selector, and the format AC, which leaves `A` and
`C` free. -/
theorem rotdxResult : Obligations.RotdxResult := by
  refine ⟨fun s c x t h => exec_rotdx h, fun s rest x b c hin => ?word, fun s c x h => exec_rotdx_illegalSelector h⟩
  case word =>
    rw [step_of_legalOpcode (op := .rotdx) (P := b = 0) hin (by rw [fieldOpc_packFields]; rfl)
      (by simp only [Opcode.format, Format.fieldsZero, fieldB_packFields])]
    simp only [Opcode.operands, fieldA_packFields, fieldC_packFields]

/-- `DATA` is the low word of a record (R27). -/
theorem data_diagRecord (k l i c : Byte) (d : Word) : (diagRecord k l i c d).extractLsb' 0 32 = d := by
  apply BitVec.eq_of_getLsbD_eq
  intro n hn
  simp only [diagRecord, BitVec.getLsbD_extractLsb', BitVec.getLsbD_append]
  simp [hn]

theorem rotdSequence_getElem? (s : State) (t : PermSpace) (x : Byte) :
    (rotdSequence s t)[x.toNat]? = some (rotdiffRecord x (rotdiff s t x)) := by
  rw [rotdSequence, List.getElem?_map, List.getElem?_map, List.getElem?_range x.isLt]
  simp only [Option.map_some, BitVec.ofNat_toNat, BitVec.setWidth_eq]

/-- Settles O53: the record that ROTD appends for `x` carries the difference that ROTDX answers. -/
theorem rotdxIsAnElementOfRotd : Obligations.RotdxIsAnElementOfRotd := by
  intro s c x t h
  refine ⟨_, _, rotdiffRecord x (rotdiff s t x), exec_rotdx h, exec_rotd h, ?record, data_diagRecord ..⟩
  case record =>
    show (s.diag ++ rotdSequence s t)[s.diag.length + x.toNat]? = _
    rw [List.getElem?_append_right (Nat.le_add_right _ _), Nat.add_sub_cancel_left, rotdSequence_getElem?]

/-! ### Reading an error code (R148 (a)) -/

/-- After a command `STATUS` reads as its code and `TV`. -/
theorem readStatus_finish (s : State) (code : Code) (r : Word) :
    (s.finish code r).readStatus = packStatus code s.tv := by
  rw [State.readStatus, finish_err, finish_tv]

/-- RDR STATUS answers the code and `TV` that the command before it left, and clears the code. -/
theorem exec_rdr_status_finish (s : State) (code : Code) (r : Word) :
    exec (.rdr 0) (s.finish code r) = .next ((s.finish code r).complete ((packStatus code s.tv).setWidth 32)) := by
  rw [← readStatus_finish s code r]
  exact exec_rdr (reg := .status) rfl

/-- Settles O57: the first read ends as every command that completes, with the code 0, which the second one reads. -/
theorem errorCodeIsReadOnce : Obligations.ErrorCodeIsReadOnce := by
  intro s code
  refine ⟨_, _, exec_rdr_status_finish s code 0, rfl, exec_rdr_status_finish _ okCode _, ?_⟩
  rw [complete_res, finish_tv]
  cases s.tv <;> decide

end Sys2Proof.Machine
